-- ==== Sys2Proof/Word.lean ====
section
/-! DEFINITION. The words of LM8-CORE: the widths the spec gives its registers and instruction fields (00_scope R6 to R8). -/

namespace Sys2Proof

/-- A byte of memory, of the display or of a general register: 8 bits (00_scope R6, `XLEN`). -/
abbrev Byte := BitVec 8

/-- A 16-bit word: an instruction, `I`, `pc` or a return address (00_scope R6, `ILEN`, `PCLEN`). -/
abbrev Word := BitVec 16

/-- A 4-bit instruction field: the register numbers `x` and `y`, the count `n`, or a key code (00_scope R8). -/
abbrev Nibble := BitVec 4

/-- The 12-bit instruction field `nnn` (00_scope R8). -/
abbrev Addr12 := BitVec 12

end Sys2Proof
end

