-- ==== Sys2Proof/Config.lean ====
section
/-! DEFINITION. What a machine of LM8-CORE fixes (its two open parameters, 00_scope R6) and the inputs the spec leaves
free at every step (10_state R50 to R53). -/

namespace Sys2Proof

/-- `ADDR_POLICY` (20_memory R62): what happens to an address above 0x0FFF. -/
inductive AddrPolicy where
  /-- The address is reduced modulo 4096: the spec's default. -/
  | mask
  /-- The access raises `AddressRange`. -/
  | fault
  deriving DecidableEq, Repr, Inhabited

/-- The open parameters of a machine (00_scope R6; decisions D2 and D17 of 92_eei_decisions). No step changes them. -/
structure Config where
  /-- `ADDR_POLICY` (20_memory R62). -/
  addrPolicy : AddrPolicy
  /-- `FONT`: the 80 glyph bytes at 0x000..0x04F (10_state R33). -/
  font : Vector Byte 80
  deriving DecidableEq, Repr, Inhabited

/-- What the other agents present to the core at one step: the signals of 10_state R50 to R53. -/
structure StepInput where
  /-- `TICK`: how many ticks fall between the last core step and this one (60_exceptions R262, R263). -/
  ticks : Nat
  /-- `KEYS`: the set `Pressed`, one wire for each key code (10_state R50). -/
  pressed : BitVec 16
  /-- `KEY_EVENT(k)`, when one is delivered with this step (10_state R51). -/
  keyEvent : Option Nibble
  /-- `RND`: the byte `draw8()` samples (10_state R53). -/
  random : Byte
  deriving DecidableEq, Repr, Inhabited

/-- FREE VALUE (log entry 2): how many ticks fall before step number `k`. Any schedule is a run (60_exceptions R263). -/
opaque Config.freeTicks : Nat → Nat

/-- FREE VALUE (log entry 3): `Pressed` at step number `k`. "Its value at each step is free" (10_state R50). -/
opaque Config.freePressed : Nat → BitVec 16

/-- FREE VALUE (log entry 4): the key event delivered with step number `k`, if any (10_state R51, 46_fgroup R222). -/
opaque Config.freeKeyEvent : Nat → Option Nibble

/-- FREE VALUE (log entry 5): the byte on `RND` at step number `k`, "a free draw under no law" (43_index_random R184). -/
opaque Config.freeRandom : Nat → Byte

/-- Every input of step number `k`, all of it free. -/
def Config.freeInput (k : Nat) : StepInput :=
  { ticks := Config.freeTicks k
    pressed := Config.freePressed k
    keyEvent := Config.freeKeyEvent k
    random := Config.freeRandom k }

end Sys2Proof
end

