-- ==== Sys2Proof/Machine/Memory.lean ====
section
/-! DEFINITION. Main memory `Mem` as plain data: a list of cells in one canonical form, and the two operations on it
(10_state R31, 20_memory R60 to R69). Addresses here are already reduced by `ea` (20_memory R62, Machine/Operands.lean). -/

namespace Sys2Proof.Machine

/-- The cells that differ from what they hold after a reset with an empty image, by rising address. -/
abbrev Memory := List Host.Cell

/-- What an address that no cell lists reads as: its content after `RESET` of an empty image, the glyph table at
0x000..0x04F and 0x00 elsewhere (10_state R56, 70_reset R281). -/
def unlistedByte (c : Config) (a : Nat) : Byte := if h : a < 80 then c.font[a] else 0x00#8

/-- The canonical form: addresses strictly rise, lie in 0x000..0xFFF (10_state R31), and no cell holds what its address
would read as unlisted. -/
abbrev Memory.wf (c : Config) (m : Memory) : Prop :=
  m.Pairwise (fun p q => p.1 < q.1) ∧ ∀ p ∈ m, p.1 < 4096 ∧ p.2 ≠ unlistedByte c p.1

/-- `Mem[a]`: "a read returns the last byte written to that address, or the reset value" (20_memory R68). -/
def Memory.read (c : Config) : Memory → Nat → Byte
  | [], a => unlistedByte c a
  | (k, b) :: m, a => if k = a then b else Memory.read c m a

/-- No cell for `a`. -/
def Memory.erase (m : Memory) (a : Nat) : Memory := m.filter (fun p => p.1 ≠ a)

/-- A cell for `a` before the first higher address. -/
def Memory.insert : Memory → Nat → Byte → Memory
  | [], a, b => [(a, b)]
  | (k, x) :: m, a, b => if a < k then (a, b) :: (k, x) :: m else (k, x) :: Memory.insert m a b

/-- `Mem[a] <- b`, in canonical form: a byte equal to the unlisted one leaves no cell (20_memory R66, R68). -/
def Memory.write (c : Config) (m : Memory) (a : Nat) (b : Byte) : Memory :=
  if b = unlistedByte c a then m.erase a else (m.erase a).insert a b

end Sys2Proof.Machine
end

