-- ==== Sys2Proof/Machine/State.lean ====
section
/-! DEFINITION. The state of LM8-CORE (10_state R20 to R56), the fault causes (60_exceptions R242) and the reasons a model
step can stop. -/

namespace Sys2Proof.Machine

/-- A fault cause with the information it records (60_exceptions R242). A cause is written into `status` by a step that
raises (R244): it is state of the machine, not an end of the model's run. -/
inductive Cause where
  /-- Code 1: a reset with an image of `length` bytes, above 3584 (R250). -/
  | loadCapacity (length : Nat)
  /-- Code 2: the word `w` at `pc` matches no pattern (R246). -/
  | decodeError (w pc : Word)
  /-- Code 3: CALL at `pc` with 16 return addresses live (R248). -/
  | stackOverflow (pc : Word)
  /-- Code 4: RETURN at `pc` with no return address live (R249). -/
  | stackUnderflow (pc : Word)
  /-- Code 5: an odd `pc` at fetch (R247). -/
  | fetchMisaligned (pc : Word)
  /-- Code 6: the address `a` is above 0x0FFF and the policy is `fault` (R251); `a` is the unreduced sum (20_memory R62). -/
  | addressRange (a : Nat) (pc : Word)
  deriving DecidableEq, Repr, Inhabited

/-- The run status (10_state R44). -/
inductive Status where
  /-- The core may take steps. -/
  | running
  /-- A fault was raised; only reset leaves this (60_exceptions R245). -/
  | failed (c : Cause)
  deriving DecidableEq, Repr, Inhabited

/-- Why a step of the model answers a fault. -/
inductive Fault where
  /-- Raised by `step` on a machine whose status is `FAILED`: "the core has no further step" (60_exceptions R245). Safe: the
  spec gives the core no behaviour here (log entry 1). -/
  | coreFailed (c : Cause)
  /-- Raised by RETURN when `SP` is above 16, where `Stack[SP - 1]` does not exist. No run reaches it (10_state R38). Safe: the
  model stops (log entry 10). -/
  | stackPointerIllegal
  deriving DecidableEq, Repr

/-- Why a step of the model answers a refusal. -/
inductive Refusal where
  /-- Raised by an arm of `exec` whose instruction has no meaning in the model; no arm is left so. Safe. -/
  | notModelled (mnemonic : String)
  deriving DecidableEq, Repr

/-- The whole machine: the spec's state, its two parameters, the inputs of the present step, and two fields of the model's
own. -/
structure State where
  /-- `V[0]`..`V[15]` (10_state R20); `VF` is entry 15 (R24). -/
  v : Vector Byte 16
  /-- The address register `I` (10_state R30). -/
  i : Word
  /-- The program counter (10_state R25). -/
  pc : Word
  /-- The stack pointer `SP` (10_state R36). -/
  sp : Byte
  /-- `Stack[0]`..`Stack[15]` (10_state R37). -/
  stack : Vector Word 16
  /-- The delay timer `DT` (10_state R39). -/
  dt : Byte
  /-- The sound timer `ST` (10_state R40). -/
  st : Byte
  /-- Main memory `Mem` (10_state R31), the cells that differ from an empty reset. -/
  mem : List Host.Cell
  /-- The display buffer `Disp` (10_state R34). -/
  disp : Vector Byte 256
  /-- The run status (10_state R44). -/
  status : Status
  /-- The parameters `ADDR_POLICY` and `FONT` (00_scope R6); no step changes them. -/
  config : Config
  /-- The signals presented to the core at the present step (10_state R50 to R53). -/
  input : StepInput
  /-- MODEL'S OWN (log entry 6): inputs the other agents have already fixed for the coming steps, oldest first. -/
  pending : List StepInput
  /-- MODEL'S OWN (log entry 6): the number of the next step, the argument of the free values of Config. -/
  steps : Nat
  deriving DecidableEq, Repr, Inhabited

/-- The machine after `RESET` of the empty image (10_state R56, 70_reset R281; the zeros are the spec's decision, log entry
13), with the parameters at their defaults (log entries 7 and 8) and the model's own fields and input record at the values of
log entry 6. -/
def State.reset : State :=
  { v := Vector.replicate 16 0x00#8
    i := 0x0000#16
    pc := 0x0200#16
    sp := 0x00#8
    stack := Vector.replicate 16 0x0000#16
    dt := 0x00#8
    st := 0x00#8
    mem := []
    disp := Vector.replicate 256 0x00#8
    status := .running
    config := defaultConfig
    input := { ticks := 0, pressed := 0x0000#16, keyEvent := none, random := 0x00#8 }
    pending := []
    steps := 0 }

end Sys2Proof.Machine
end

