-- ==== Sys2Proof/Machine/Display.lean ====
section
/-! DEFINITION. The display engine: clear, the XOR-blit with collision, and the pixel view (10_state R34, R35; 44_draw R190
to R198). -/

namespace Sys2Proof.Machine

/-- The 256 bytes of `Disp` (10_state R34). -/
abbrev Display := Vector Byte 256

/-- `clear()`: "zeroes the buffer" (44_draw R190). -/
def blankDisplay : Display := Vector.replicate 256 0x00#8

/-- The index of the byte at row `row mod 32`, byte-column `col mod 8` (10_state R35; 44_draw R194, R196). -/
def dispIndex (row col : Nat) : Nat := 8 * (row % 32) + col % 8

/-- `dispIndex` is always in range (20_memory R78). -/
theorem dispIndex_lt (row col : Nat) : dispIndex row col < 256 := by unfold dispIndex; omega

/-- `Disp[k]` at a row and byte-column. -/
def dispByte (d : Display) (row col : Nat) : Byte := d[dispIndex row col]'(dispIndex_lt row col)

/-- `Disp[k] <- Disp[k] ^ b` at a row and byte-column. -/
def xorByte (d : Display) (row col : Nat) (b : Byte) : Display :=
  d.set (dispIndex row col) (dispByte d row col ^^^ b) (dispIndex_lt row col)

/-- `lo`: the part of a sprite byte at column `x` that goes to byte-column `x div 8` (44_draw R196). -/
def spriteLo (x : Nat) (b : Byte) : Byte := b >>> (x % 8)

/-- `hi`: the part that goes to the next byte-column of the same row (44_draw R196); 0x00 when `x` is a multiple of 8. -/
def spriteHi (x : Nat) (b : Byte) : Byte := b <<< (8 - x % 8)

/-- One row of the write: the display after it, and whether it collided (44_draw R197, R198). -/
def blitRow (d : Display) (b : Byte) (x row : Nat) : Display × Bool :=
  let col := x / 8
  let lo := spriteLo x b
  let hi := spriteHi x b
  (xorByte (xorByte d row col lo) row (col + 1) hi,
    dispByte d row col &&& lo != 0x00#8 || dispByte d row (col + 1) &&& hi != 0x00#8)

/-- `DispWrite(S, x, y)`: sprite byte i goes to row `(y + i) mod 32`; the outcome is whether any row collided (44_draw R198). -/
def dispWrite (d : Display) : List Byte → Nat → Nat → Display × Bool
  | [], _, _ => (d, false)
  | b :: bs, x, y =>
    let r := blitRow d b x y
    let q := dispWrite r.1 bs x (y + 1)
    (q.1, r.2 || q.2)

/-- Whether pixel (`px`, `py`) is set: bit `7 - (px mod 8)` of its byte (10_state R35). -/
def pixel (d : Display) (px py : Nat) : Bool := (dispByte d py (px / 8)).getLsbD (7 - px % 8)

end Sys2Proof.Machine
end

