-- ==== Sys2Proof/Machine/Operands.lean ====
section
/-! DEFINITION. The operand forms of LM8-CORE: registers, memory addresses and ranges, the key number, the glyph address and
the decimal digits. -/

namespace Sys2Proof.Machine

/-! ## Registers (10_state R20, R21) -/

/-- `V[x]`: every register number is legal and none is hard-wired. -/
def State.reg (s : State) (x : Nibble) : Byte := s.v[x.toNat]'x.isLt

/-- `V[x] <- b`. -/
def State.setReg (s : State) (x : Nibble) (b : Byte) : State := { s with v := s.v.set x.toNat b x.isLt }

/-! ## Memory addresses (20_memory R62, 60_exceptions R251) -/

/-- The address presented to memory for the unreduced sum `a`. Under `fault` it is `a` itself, because
`State.addressFault` has let only addresses up to 0x0FFF pass (DEDUCED, log entry 19). -/
def ea (a : Nat) : Nat := a % 4096

/-- The address that `AddressRange` reports for an access to `count` bytes from `base`, checked for the whole range before
any byte (R251). DEDUCED (log entry 9): it is the first address of the range above 0x0FFF. -/
def State.addressFault (s : State) (base count : Nat) : Option Nat :=
  if s.config.addrPolicy = .fault ∧ 0 < count ∧ 0x0FFF < base + (count - 1) then some (max base 0x1000) else none

/-- `MemRead(a, 1)` (00_scope R10). -/
def State.readByte (s : State) (a : Nat) : Byte := Memory.read s.config s.mem (ea a)

/-- `MemWrite(a, 1, b)` (00_scope R10). -/
def State.writeByte (s : State) (a : Nat) (b : Byte) : State :=
  { s with mem := Memory.write s.config s.mem (ea a) b }

/-- The bytes at `base`, `base + 1`, .., `base + n - 1`. -/
def State.readBytes (s : State) (base n : Nat) : List Byte := (List.range n).map (fun k => s.readByte (base + k))

/-- The bytes stored at `base`, `base + 1`, .. in ascending address order (20_memory R69). -/
def State.writeBytes (s : State) (base : Nat) : List Byte → State
  | [] => s
  | b :: bs => (s.writeByte base b).writeBytes (base + 1) bs

/-! ## Values computed from one register -/

/-- Whether key `k` is in `Pressed`. The whole byte is the key number: 16 and above is in no `Pressed` (45_keys R208). -/
def State.keyDown (s : State) (k : Byte) : Bool := k.toNat < 16 && s.input.pressed.getLsbD k.toNat

/-- The glyph address of the low nibble of a byte (46_fgroup R230). -/
def glyphAddress (b : Byte) : Word := BitVec.ofNat 16 (b.toNat % 16 * 5)

/-- The hundreds, tens and ones digits of a byte, one digit a byte (46_fgroup R232). -/
def bcdDigits (b : Byte) : List Byte :=
  [BitVec.ofNat 8 (b.toNat / 100), BitVec.ofNat 8 (b.toNat / 10 % 10), BitVec.ofNat 8 (b.toNat % 10)]

end Sys2Proof.Machine
end

