-- ==== Sys2Proof/Machine/Flags.lean ====
section
/-! DEFINITION. The flag outcomes that instructions write into `VF` (10_state R24, 42_load_alu R158). -/

namespace Sys2Proof.Machine

/-- The carry out of an 8-bit addition (42_load_alu R167). -/
def addCarry (a b : Byte) : Bool := 255 < a.toNat + b.toNat

/-- "No borrow" of `a - b`: true at equality (42_load_alu R168; 90_conflicts C2). -/
def noBorrow (a b : Byte) : Bool := b.toNat ≤ a.toNat

/-- The bit a right shift by one shifts out (42_load_alu R169). -/
def shrBitOut (a : Byte) : Bool := a.getLsbD 0

/-- The bit a left shift by one shifts out (42_load_alu R171). -/
def shlBitOut (a : Byte) : Bool := a.getLsbD 7

/-- A flag outcome as `VF` holds it: 0x00 or 0x01 (10_state R24). -/
def flagByte (f : Bool) : Byte := if f then 0x01#8 else 0x00#8

/-- `VF <- f` (10_state R24). -/
def State.setFlag (s : State) (f : Bool) : State := s.setReg 0xF#4 (flagByte f)

end Sys2Proof.Machine
end

