-- ==== Sys2Proof/Syntax.lean ====
section
/-! DEFINITION. The 34 instructions of LM8-CORE, in the order of spec/opcode_table.json (30_encoding R100). -/

namespace Sys2Proof

/-- An instruction with its decoded fields (30_encoding R101). Each operand has the type of its field, so every value of
the type is one the encoding admits (R93); the fields that execution ignores are kept (R103). -/
inductive Instr where
  /-- 00E0 `CLEAR` (R140). -/
  | clear
  /-- 00EE `RETURN` (R142). -/
  | ret
  /-- 1nnn `JUMP nnn` (R144). -/
  | jump (nnn : Addr12)
  /-- 2nnn `CALL nnn` (R146). -/
  | call (nnn : Addr12)
  /-- 3xkk `SKIPEQ Vx, kk` (R150). -/
  | skipEqImm (x : Nibble) (kk : Byte)
  /-- 4xkk `SKIPNE Vx, kk` (R151). -/
  | skipNeImm (x : Nibble) (kk : Byte)
  /-- 5xy0 `SKIPEQ Vx, Vy` (R152). -/
  | skipEqReg (x y : Nibble)
  /-- 9xy0 `SKIPNE Vx, Vy` (R153). -/
  | skipNeReg (x y : Nibble)
  /-- 6xkk `LOAD Vx, kk` (R160). -/
  | loadImm (x : Nibble) (kk : Byte)
  /-- 8xy0 `LOAD Vx, Vy` (R161). -/
  | loadReg (x y : Nibble)
  /-- 7xkk `ADD Vx, kk` (R162). -/
  | addImm (x : Nibble) (kk : Byte)
  /-- 8xy1 `OR Vx, Vy` (R164). -/
  | orReg (x y : Nibble)
  /-- 8xy2 `AND Vx, Vy` (R165). -/
  | andReg (x y : Nibble)
  /-- 8xy3 `XOR Vx, Vy` (R166). -/
  | xorReg (x y : Nibble)
  /-- 8xy4 `ADD Vx, Vy` (R167). -/
  | addReg (x y : Nibble)
  /-- 8xy5 `SUB Vx, Vy` (R168). -/
  | sub (x y : Nibble)
  /-- 8xy6 `SHR Vx, Vy` (R169); `y` is ignored. -/
  | shr (x y : Nibble)
  /-- 8xy7 `SUBN Vx, Vy` (R170). -/
  | subn (x y : Nibble)
  /-- 8xyE `SHL Vx, Vy` (R171); `y` is ignored. -/
  | shl (x y : Nibble)
  /-- Annn `LOAD I, nnn` (R180). -/
  | loadI (nnn : Addr12)
  /-- Bnnn `JUMP V0, nnn` (R182). -/
  | jumpV0 (nnn : Addr12)
  /-- Cxkk `RANDOM Vx, kk` (R184). -/
  | random (x : Nibble) (kk : Byte)
  /-- Dxyn `DRAW Vx, Vy, n` (R199). -/
  | draw (x y n : Nibble)
  /-- Ex9E `SKIPKEY Vx` (R210). -/
  | skipKey (x : Nibble)
  /-- ExA1 `SKIPNKEY Vx` (R212). -/
  | skipNKey (x : Nibble)
  /-- Fx07 `LOAD Vx, DT` (R220). -/
  | loadFromDT (x : Nibble)
  /-- Fx0A `LOAD Vx, K` (R222). -/
  | loadKey (x : Nibble)
  /-- Fx15 `LOAD DT, Vx` (R224). -/
  | loadDT (x : Nibble)
  /-- Fx18 `LOAD ST, Vx` (R226). -/
  | loadST (x : Nibble)
  /-- Fx1E `ADD I, Vx` (R228). -/
  | addI (x : Nibble)
  /-- Fx29 `LOAD F, Vx` (R230). -/
  | loadFont (x : Nibble)
  /-- Fx33 `LOAD B, Vx` (R232). -/
  | loadBcd (x : Nibble)
  /-- Fx55 `LOAD I, Vx` (R234): the bulk store; `x` is ignored. -/
  | storeAll (x : Nibble)
  /-- Fx65 `LOAD Vx, I` (R236): the bulk load; `x` is ignored. -/
  | loadAll (x : Nibble)
  deriving DecidableEq, Repr

end Sys2Proof
end

