-- ==== Sys2Proof/WellFormed.lean ====
section
/-! DEFINITION. What well-formed input is: instructions (every term is one) and program images (a length check). -/

namespace Sys2Proof

/-- An instruction is well formed when each operand lies in the range its field encodes (30_encoding R93, R103). The
operand types are the fields' widths and "all 16 values are legal", so no term of `Instr` is ill formed. -/
def Instr.wellFormed (_ : Instr) : Bool := true

/-- A program image is acceptable when it has at most 3584 bytes (10_state R49, 70_reset R282, R283): the one check
that the spec makes of an image. -/
def imageFits (image : List Byte) : Bool := image.length ≤ 3584

end Sys2Proof
end

