-- ==== Sys2Proof/Machine/Ops.lean ====
section
/-! DEFINITION. The operations every instruction shares: the advance of `pc`, raising a fault, the timers' tick, taking in a
step's inputs, and the host's reset. -/

namespace Sys2Proof.Machine

/-! ## The program counter (10_state R27, R28) -/

/-- The default advance: `pc <- (pc + 2) mod 65536`. -/
def State.advance (s : State) : State := { s with pc := s.pc + 2#16 }

/-- A skip: `pc + 4` when the condition holds, else the default advance (41_skip R149). -/
def State.skipIf (s : State) (cond : Bool) : State := { s with pc := if cond then s.pc + 4#16 else s.pc + 2#16 }

/-- A control transfer: the target, and no advance (10_state R27). -/
def State.jumpTo (s : State) (target : Word) : State := { s with pc := target }

/-! ## Raising a fault: the machine's whole trap entry (60_exceptions R244) -/

/-- `raise`: `status <- FAILED(cause, info)` and nothing else. There is no return from it but reset (R245). -/
def State.raise (s : State) (c : Cause) : State := { s with status := .failed c }

/-- `done`, unless the `count` bytes from `I` are out of range under the policy `fault`: then `AddressRange` is raised
before any of them is accessed (60_exceptions R251). -/
def State.guardData (s : State) (count : Nat) (done : State) : State :=
  match s.addressFault s.i.toNat count with
  | some a => s.raise (.addressRange a s.pc)
  | none => done

/-! ## The tick (60_exceptions R262) -/

/-- A timer after `n` ticks: each takes one away, and zero stays zero. -/
def timerAfter (n : Nat) (t : Byte) : Byte := if t = 0x00#8 then 0x00#8 else BitVec.ofNat 8 (t.toNat - n)

/-- `n` ticks in a row: each decrements both timers. -/
def State.ticks (s : State) (n : Nat) : State := { s with dt := timerAfter n s.dt, st := timerAfter n s.st }

/-- `Tick()`: one step of the tick agent. -/
def State.tick (s : State) : State := s.ticks 1

/-! ## The inputs of a step (10_state R50 to R53) -/

/-- The inputs of the coming step: the oldest supplied ones, or free ones (log entries 2 to 6). -/
def State.nextInput (s : State) : StepInput :=
  match s.pending with
  | inp :: _ => inp
  | [] => Config.freeInput s.steps

/-- What happens before the core acts: the coming step's inputs are presented, and the ticks among them fall (the other
agents move between core steps, 00_scope R14, 60_exceptions R262). -/
def State.beginStep (s : State) : State :=
  let inp := s.nextInput
  { s with
    dt := timerAfter inp.ticks s.dt
    st := timerAfter inp.ticks s.st
    input := inp
    pending := s.pending.tail
    steps := s.steps + 1 }

/-! ## Reset (70_reset R281 to R283) -/

/-- FREE VALUE (log entry 11): the machine after a reset that failed at step number `k`; only its `status` is specified
(70_reset R283). -/
opaque unspecifiedState : Nat → State

/-- `RESET(image)`. An image of at most 3584 bytes is copied to 0x200 on a machine whose every other piece of state is at its
reset value (R281, R282). A longer one leaves `FAILED(LoadCapacity, length)` and nothing else specified (R283). The
parameters and the other agents' inputs are no part of what reset sets. -/
def State.hostReset (s : State) (image : List Byte) : State :=
  let fresh : State :=
    if imageFits image then { State.reset with config := s.config }.writeBytes 0x200 image
    else (unspecifiedState s.steps).raise (.loadCapacity image.length)
  { fresh with config := s.config, input := s.input, pending := s.pending, steps := s.steps + 1 }

end Sys2Proof.Machine
end

