-- ==== Sys2Proof/Machine/Draw.lean ====
section
/-! DEFINITION. DRAW (44_draw R199). -/

namespace Sys2Proof.Machine

/-- The outcome of the display write that `DRAW Vx, Vy, n` makes: the sprite is the `n` bytes from `I` (R199). -/
def State.drawResult (s : State) (x y n : Nibble) : Display × Bool :=
  dispWrite s.disp (s.readBytes s.i.toNat n.toNat) (s.reg x).toNat (s.reg y).toNat

/-- `DRAW Vx, Vy, n` (R199): coordinates and sprite are read first; `VF` is always written. -/
def execDraw (x y n : Nibble) (s : State) : Host.Outcome State Fault Refusal :=
  .next (s.guardData n.toNat
    ({ s with disp := (s.drawResult x y n).1 }.setFlag (s.drawResult x y n).2).advance)

end Sys2Proof.Machine
end

