-- ==== Sys2Proof/Machine/FGroup.lean ====
section
/-! DEFINITION. The nine instructions of opcode class F (46_fgroup R220 to R236). None writes `VF` as a flag. -/

namespace Sys2Proof.Machine

/-- `LOAD Vx, DT` (R220). -/
def execLoadFromDT (x : Nibble) (s : State) : Host.Outcome State Fault Refusal :=
  .next (s.setReg x s.dt).advance

/-- `LOAD Vx, K` (R222): with a key event at this step its code goes to `V[x]`; with none the core holds, and changes nothing,
`pc` included (10_state R27; log entry 4). -/
def execLoadKey (x : Nibble) (s : State) : Host.Outcome State Fault Refusal :=
  .next (match s.input.keyEvent with
    | some k => (s.setReg x (k.zeroExtend 8)).advance
    | none => s)

/-- `LOAD DT, Vx` (R224). -/
def execLoadDT (x : Nibble) (s : State) : Host.Outcome State Fault Refusal :=
  .next { s with dt := s.reg x }.advance

/-- `LOAD ST, Vx` (R226). -/
def execLoadST (x : Nibble) (s : State) : Host.Outcome State Fault Refusal :=
  .next { s with st := s.reg x }.advance

/-- `ADD I, Vx` (R228): modulo 65536, no flag. -/
def execAddI (x : Nibble) (s : State) : Host.Outcome State Fault Refusal :=
  .next { s with i := s.i + (s.reg x).zeroExtend 16 }.advance

/-- `LOAD F, Vx` (R230). -/
def execLoadFont (x : Nibble) (s : State) : Host.Outcome State Fault Refusal :=
  .next { s with i := glyphAddress (s.reg x) }.advance

/-- `LOAD B, Vx` (R232): three digits at `I`, `I + 1`, `I + 2`. -/
def execLoadBcd (x : Nibble) (s : State) : Host.Outcome State Fault Refusal :=
  .next (s.guardData 3 (s.writeBytes s.i.toNat (bcdDigits (s.reg x))).advance)

/-- `LOAD I, Vx` (R234): all 16 registers to `I`.., whatever `x` is; `I` is unchanged. -/
def execStoreAll (_x : Nibble) (s : State) : Host.Outcome State Fault Refusal :=
  .next (s.guardData 16 (s.writeBytes s.i.toNat s.v.toList).advance)

/-- `LOAD Vx, I` (R236): all 16 registers from `I`.., whatever `x` is; `I` is unchanged. -/
def execLoadAll (_x : Nibble) (s : State) : Host.Outcome State Fault Refusal :=
  .next (s.guardData 16 { s with v := Vector.ofFn (fun k : Fin 16 => s.readByte (s.i.toNat + k.val)) }.advance)

end Sys2Proof.Machine
end

