-- ==== Sys2Proof/Machine/Flow.lean ====
section
/-! DEFINITION. CLEAR, RETURN, JUMP, CALL (40_flow R140 to R148). -/

namespace Sys2Proof.Machine

/-- `CLEAR` (R140): the display buffer is zeroed; `VF` is not written. -/
def execClear (s : State) : Host.Outcome State Fault Refusal :=
  .next { s with disp := blankDisplay }.advance

/-- `RETURN` (R142): the top return address is popped into `pc`, with no advance; the popped entry keeps its value. With no
return address live it raises `StackUnderflow`. `SP` above 16 is no state of the machine (R38, log entry 10). -/
def execRet (s : State) : Host.Outcome State Fault Refusal :=
  if s.sp = 0x00#8 then .next (s.raise (.stackUnderflow s.pc))
  else if h : (s.sp - 1#8).toNat < 16 then
    .next ({ s with sp := s.sp - 1#8 }.jumpTo s.stack[(s.sp - 1#8).toNat])
  else .fault .stackPointerIllegal

/-- `JUMP nnn` (R144). -/
def execJump (nnn : Addr12) (s : State) : Host.Outcome State Fault Refusal :=
  .next (s.jumpTo (nnn.zeroExtend 16))

/-- `CALL nnn` (R146): the address of the next instruction is pushed, then `pc <- nnn`; with 16 return addresses live it
raises `StackOverflow` before any write. -/
def execCall (nnn : Addr12) (s : State) : Host.Outcome State Fault Refusal :=
  if h : s.sp.toNat < 16 then
    .next ({ s with stack := s.stack.set s.sp.toNat (s.pc + 2#16), sp := s.sp + 1#8 }.jumpTo (nnn.zeroExtend 16))
  else .next (s.raise (.stackOverflow s.pc))

end Sys2Proof.Machine
end

