-- ==== Sys2Proof/Machine/IndexRandom.lean ====
section
/-! DEFINITION. LOAD I, JUMP V0, RANDOM (43_index_random R180 to R184). -/

namespace Sys2Proof.Machine

/-- `LOAD I, nnn` (R180). -/
def execLoadI (nnn : Addr12) (s : State) : Host.Outcome State Fault Refusal :=
  .next { s with i := nnn.zeroExtend 16 }.advance

/-- `JUMP V0, nnn` (R182): the 16-bit sum, no advance. -/
def execJumpV0 (nnn : Addr12) (s : State) : Host.Outcome State Fault Refusal :=
  .next (s.jumpTo ((s.reg 0x0#4).zeroExtend 16 + nnn.zeroExtend 16))

/-- `RANDOM Vx, kk` (R184): the byte on `RND` at this step, masked. -/
def execRandom (x : Nibble) (kk : Byte) (s : State) : Host.Outcome State Fault Refusal :=
  .next (s.setReg x (s.input.random &&& kk)).advance

end Sys2Proof.Machine
end

