-- ==== Sys2Proof/Machine/Keys.lean ====
section
/-! DEFINITION. The key skips (45_keys R208 to R212). -/

namespace Sys2Proof.Machine

/-- `SKIPKEY Vx` (R210). -/
def execSkipKey (x : Nibble) (s : State) : Host.Outcome State Fault Refusal :=
  .next (s.skipIf (s.keyDown (s.reg x)))

/-- `SKIPNKEY Vx` (R212). -/
def execSkipNKey (x : Nibble) (s : State) : Host.Outcome State Fault Refusal :=
  .next (s.skipIf (!s.keyDown (s.reg x)))

end Sys2Proof.Machine
end

