-- ==== Sys2Proof/Machine/LoadAlu.lean ====
section
/-! DEFINITION. Register loads and the ALU (42_load_alu R158 to R171). Operands are read from `s`, then `VF` is written, then
`V[x]` (10_state R22, 42_load_alu R159). -/

namespace Sys2Proof.Machine

/-- `LOAD Vx, kk` (R160). -/
def execLoadImm (x : Nibble) (kk : Byte) (s : State) : Host.Outcome State Fault Refusal :=
  .next (s.setReg x kk).advance

/-- `LOAD Vx, Vy` (R161). -/
def execLoadReg (x y : Nibble) (s : State) : Host.Outcome State Fault Refusal :=
  .next (s.setReg x (s.reg y)).advance

/-- `ADD Vx, kk` (R162): "no carry flag touched". -/
def execAddImm (x : Nibble) (kk : Byte) (s : State) : Host.Outcome State Fault Refusal :=
  .next (s.setReg x (s.reg x + kk)).advance

/-- `OR Vx, Vy` (R164). -/
def execOrReg (x y : Nibble) (s : State) : Host.Outcome State Fault Refusal :=
  .next (s.setReg x (s.reg x ||| s.reg y)).advance

/-- `AND Vx, Vy` (R165). -/
def execAndReg (x y : Nibble) (s : State) : Host.Outcome State Fault Refusal :=
  .next (s.setReg x (s.reg x &&& s.reg y)).advance

/-- `XOR Vx, Vy` (R166). -/
def execXorReg (x y : Nibble) (s : State) : Host.Outcome State Fault Refusal :=
  .next (s.setReg x (s.reg x ^^^ s.reg y)).advance

/-- The end of every instruction with a flag: `VF` first, then the result (10_state R22). -/
def State.writeFlagged (s : State) (x : Nibble) (flag : Bool) (result : Byte) : State :=
  ((s.setFlag flag).setReg x result).advance

/-- `ADD Vx, Vy` (R167): `VF` is the carry. -/
def execAddReg (x y : Nibble) (s : State) : Host.Outcome State Fault Refusal :=
  .next (s.writeFlagged x (addCarry (s.reg x) (s.reg y)) (s.reg x + s.reg y))

/-- `SUB Vx, Vy` (R168): `VF` is "no borrow". -/
def execSub (x y : Nibble) (s : State) : Host.Outcome State Fault Refusal :=
  .next (s.writeFlagged x (noBorrow (s.reg x) (s.reg y)) (s.reg x - s.reg y))

/-- `SHR Vx` (R169): in place; `y` is neither read nor written. -/
def execShr (x _y : Nibble) (s : State) : Host.Outcome State Fault Refusal :=
  .next (s.writeFlagged x (shrBitOut (s.reg x)) (s.reg x >>> 1))

/-- `SUBN Vx, Vy` (R170): the operands of `SUB` swapped, the result still in `V[x]`. -/
def execSubn (x y : Nibble) (s : State) : Host.Outcome State Fault Refusal :=
  .next (s.writeFlagged x (noBorrow (s.reg y) (s.reg x)) (s.reg y - s.reg x))

/-- `SHL Vx` (R171): in place; `y` is neither read nor written. -/
def execShl (x _y : Nibble) (s : State) : Host.Outcome State Fault Refusal :=
  .next (s.writeFlagged x (shlBitOut (s.reg x)) (s.reg x <<< 1))

end Sys2Proof.Machine
end

