-- ==== Sys2Proof/Machine/Dispatch.lean ====
section
/-! DEFINITION. `Execute(d)` (10_state R26): one arm for each instruction, in the order of the opcode table. -/

namespace Sys2Proof.Machine

/-- The meaning of a decoded instruction. -/
def exec (i : Instr) (s : State) : Host.Outcome State Fault Refusal :=
  match i with
  | .clear => Sys2Proof.Machine.execClear s
  | .ret => Sys2Proof.Machine.execRet s
  | .jump nnn => Sys2Proof.Machine.execJump nnn s
  | .call nnn => Sys2Proof.Machine.execCall nnn s
  | .skipEqImm x kk => Sys2Proof.Machine.execSkipEqImm x kk s
  | .skipNeImm x kk => Sys2Proof.Machine.execSkipNeImm x kk s
  | .skipEqReg x y => Sys2Proof.Machine.execSkipEqReg x y s
  | .skipNeReg x y => Sys2Proof.Machine.execSkipNeReg x y s
  | .loadImm x kk => Sys2Proof.Machine.execLoadImm x kk s
  | .loadReg x y => Sys2Proof.Machine.execLoadReg x y s
  | .addImm x kk => Sys2Proof.Machine.execAddImm x kk s
  | .orReg x y => Sys2Proof.Machine.execOrReg x y s
  | .andReg x y => Sys2Proof.Machine.execAndReg x y s
  | .xorReg x y => Sys2Proof.Machine.execXorReg x y s
  | .addReg x y => Sys2Proof.Machine.execAddReg x y s
  | .sub x y => Sys2Proof.Machine.execSub x y s
  | .shr x y => Sys2Proof.Machine.execShr x y s
  | .subn x y => Sys2Proof.Machine.execSubn x y s
  | .shl x y => Sys2Proof.Machine.execShl x y s
  | .loadI nnn => Sys2Proof.Machine.execLoadI nnn s
  | .jumpV0 nnn => Sys2Proof.Machine.execJumpV0 nnn s
  | .random x kk => Sys2Proof.Machine.execRandom x kk s
  | .draw x y n => Sys2Proof.Machine.execDraw x y n s
  | .skipKey x => Sys2Proof.Machine.execSkipKey x s
  | .skipNKey x => Sys2Proof.Machine.execSkipNKey x s
  | .loadFromDT x => Sys2Proof.Machine.execLoadFromDT x s
  | .loadKey x => Sys2Proof.Machine.execLoadKey x s
  | .loadDT x => Sys2Proof.Machine.execLoadDT x s
  | .loadST x => Sys2Proof.Machine.execLoadST x s
  | .addI x => Sys2Proof.Machine.execAddI x s
  | .loadFont x => Sys2Proof.Machine.execLoadFont x s
  | .loadBcd x => Sys2Proof.Machine.execLoadBcd x s
  | .storeAll x => Sys2Proof.Machine.execStoreAll x s
  | .loadAll x => Sys2Proof.Machine.execLoadAll x s

end Sys2Proof.Machine
end

