-- ==== Sys2Proof/Decode.lean ====
section
/-! DEFINITION. The decoder, and after it the encoder of the same 34 rows (30_encoding R91, R100, R101, R127). -/

namespace Sys2Proof

/-! ## Fields (30_encoding R91) -/

/-- `op`: "top nibble (opcode class)". -/
def opField (w : Word) : Nibble := w.extractLsb' 12 4

/-- `x`: "second nibble (register x)". -/
def xField (w : Word) : Nibble := w.extractLsb' 8 4

/-- `y`: "third nibble (register y)". -/
def yField (w : Word) : Nibble := w.extractLsb' 4 4

/-- `n`: "bottom nibble (immediate n)". -/
def nField (w : Word) : Nibble := w.extractLsb' 0 4

/-- `kk`: "bottom byte (immediate kk)". -/
def kkField (w : Word) : Byte := w.extractLsb' 0 8

/-- `nnn`: "bottom 12 bits (address nnn)". -/
def nnnField (w : Word) : Addr12 := w.extractLsb' 0 12

/-! ## The decoder (30_encoding R101, R104) -/

/-- Class 0: only the words 00E0 and 00EE. -/
def decodeClass0 (w : Word) : Option Instr :=
  if w = 0x00E0#16 then some .clear
  else if w = 0x00EE#16 then some .ret
  else none

/-- Class 8: the sub-opcode is `n`. -/
def decodeClass8 (w : Word) : Option Instr :=
  let x := xField w
  let y := yField w
  match nField w with
  | 0x0#4 => some (.loadReg x y)
  | 0x1#4 => some (.orReg x y)
  | 0x2#4 => some (.andReg x y)
  | 0x3#4 => some (.xorReg x y)
  | 0x4#4 => some (.addReg x y)
  | 0x5#4 => some (.sub x y)
  | 0x6#4 => some (.shr x y)
  | 0x7#4 => some (.subn x y)
  | 0xE#4 => some (.shl x y)
  | _ => none

/-- Class E: the sub-opcode is `kk`. -/
def decodeClassE (w : Word) : Option Instr :=
  match kkField w with
  | 0x9E#8 => some (.skipKey (xField w))
  | 0xA1#8 => some (.skipNKey (xField w))
  | _ => none

/-- Class F: the sub-opcode is `kk`. -/
def decodeClassF (w : Word) : Option Instr :=
  match kkField w with
  | 0x07#8 => some (.loadFromDT (xField w))
  | 0x0A#8 => some (.loadKey (xField w))
  | 0x15#8 => some (.loadDT (xField w))
  | 0x18#8 => some (.loadST (xField w))
  | 0x1E#8 => some (.addI (xField w))
  | 0x29#8 => some (.loadFont (xField w))
  | 0x33#8 => some (.loadBcd (xField w))
  | 0x55#8 => some (.storeAll (xField w))
  | 0x65#8 => some (.loadAll (xField w))
  | _ => none

/-- `Decode(w)` (30_encoding R101): total on all 65536 words, `none` on an illegal one (R104). -/
def decodeWord (w : Word) : Option Instr :=
  match opField w with
  | 0x0#4 => decodeClass0 w
  | 0x1#4 => some (.jump (nnnField w))
  | 0x2#4 => some (.call (nnnField w))
  | 0x3#4 => some (.skipEqImm (xField w) (kkField w))
  | 0x4#4 => some (.skipNeImm (xField w) (kkField w))
  | 0x5#4 => if nField w = 0#4 then some (.skipEqReg (xField w) (yField w)) else none
  | 0x6#4 => some (.loadImm (xField w) (kkField w))
  | 0x7#4 => some (.addImm (xField w) (kkField w))
  | 0x8#4 => decodeClass8 w
  | 0x9#4 => if nField w = 0#4 then some (.skipNeReg (xField w) (yField w)) else none
  | 0xA#4 => some (.loadI (nnnField w))
  | 0xB#4 => some (.jumpV0 (nnnField w))
  | 0xC#4 => some (.random (xField w) (kkField w))
  | 0xD#4 => some (.draw (xField w) (yField w) (nField w))
  | 0xE#4 => decodeClassE w
  | _ => decodeClassF w

/-- Why a byte string does not begin with an instruction. -/
inductive DecodeReject where
  /-- Fewer than two bytes: every instruction is exactly 2 bytes (30_encoding R90). -/
  | truncated
  /-- The word matches no row (30_encoding R104). -/
  | illegal (w : Word)
  deriving DecidableEq, Repr

/-- The word of two consecutive bytes: the byte at the lower address is the high byte (20_memory R64). -/
def wordOfBytes (hi lo : Byte) : Word := hi ++ lo

/-- The instruction at the head of a byte string, and the bytes after it; total on any bytes (30_encoding R90, R101). -/
def decode : List Byte → Except DecodeReject (Instr × List Byte)
  | hi :: lo :: rest =>
    match decodeWord (wordOfBytes hi lo) with
    | some i => .ok (i, rest)
    | none => .error (.illegal (wordOfBytes hi lo))
  | _ => .error .truncated

/-! ## The encoder (30_encoding R92, R100) -/

/-- Format A: `op`, `nnn`. -/
def packA (op : Nibble) (nnn : Addr12) : Word := op ++ nnn

/-- Format XK, and format XS with its sub-opcode as `kk`: `op`, `x`, `kk`. -/
def packXK (op x : Nibble) (kk : Byte) : Word := op ++ x ++ kk

/-- Format XYN, and format XY with its sub-opcode as `n`: `op`, `x`, `y`, `n`. -/
def packXYN (op x y n : Nibble) : Word := op ++ x ++ y ++ n

/-- The word of an instruction: the `word` column of 30_encoding R100. -/
def encode : Instr → Word
  | .clear => 0x00E0#16
  | .ret => 0x00EE#16
  | .jump nnn => packA 0x1#4 nnn
  | .call nnn => packA 0x2#4 nnn
  | .skipEqImm x kk => packXK 0x3#4 x kk
  | .skipNeImm x kk => packXK 0x4#4 x kk
  | .skipEqReg x y => packXYN 0x5#4 x y 0x0#4
  | .skipNeReg x y => packXYN 0x9#4 x y 0x0#4
  | .loadImm x kk => packXK 0x6#4 x kk
  | .loadReg x y => packXYN 0x8#4 x y 0x0#4
  | .addImm x kk => packXK 0x7#4 x kk
  | .orReg x y => packXYN 0x8#4 x y 0x1#4
  | .andReg x y => packXYN 0x8#4 x y 0x2#4
  | .xorReg x y => packXYN 0x8#4 x y 0x3#4
  | .addReg x y => packXYN 0x8#4 x y 0x4#4
  | .sub x y => packXYN 0x8#4 x y 0x5#4
  | .shr x y => packXYN 0x8#4 x y 0x6#4
  | .subn x y => packXYN 0x8#4 x y 0x7#4
  | .shl x y => packXYN 0x8#4 x y 0xE#4
  | .loadI nnn => packA 0xA#4 nnn
  | .jumpV0 nnn => packA 0xB#4 nnn
  | .random x kk => packXK 0xC#4 x kk
  | .draw x y n => packXYN 0xD#4 x y n
  | .skipKey x => packXK 0xE#4 x 0x9E#8
  | .skipNKey x => packXK 0xE#4 x 0xA1#8
  | .loadFromDT x => packXK 0xF#4 x 0x07#8
  | .loadKey x => packXK 0xF#4 x 0x0A#8
  | .loadDT x => packXK 0xF#4 x 0x15#8
  | .loadST x => packXK 0xF#4 x 0x18#8
  | .addI x => packXK 0xF#4 x 0x1E#8
  | .loadFont x => packXK 0xF#4 x 0x29#8
  | .loadBcd x => packXK 0xF#4 x 0x33#8
  | .storeAll x => packXK 0xF#4 x 0x55#8
  | .loadAll x => packXK 0xF#4 x 0x65#8

/-- The two bytes of a word as memory holds them, high byte first (30_encoding R127, 20_memory R64). -/
def bytesOfWord (w : Word) : List Byte := [w.extractLsb' 8 8, w.extractLsb' 0 8]

/-- The two bytes of an instruction (30_encoding R127). -/
def encodeBytes (i : Instr) : List Byte := bytesOfWord (encode i)

/-! ## The table's numbering of bits -/

/-- The instruction the decoder reads from the bits `w` of an opcode-table row. The table numbers one 16-bit word, bit 0
its least significant; bits above `nbits` are zero, and the word is laid out in memory order before it is decoded. -/
def decodeTableWord (nbits w : Nat) : Option Instr :=
  match decode (bytesOfWord (BitVec.ofNat 16 (w % 2 ^ nbits))) with
  | .ok (i, _) => some i
  | .error _ => none

end Sys2Proof
end

