-- ==== Sys2Proof/Machine/Fetch.lean ====
section
/-! DEFINITION. Fetching and decoding the instruction at `pc`, with the checks in the order of 60_exceptions R252. -/

namespace Sys2Proof.Machine

/-- The word at `pc`, high byte at the lower address (20_memory R64). -/
def State.fetchWord (s : State) : Word :=
  wordOfBytes (s.readByte s.pc.toNat) (s.readByte (s.pc.toNat + 1))

/-- The instruction at `pc`, or the cause that the step raises: `FetchMisaligned`, then `AddressRange` on the fetch, then
`DecodeError` (10_state R26, 60_exceptions R252). -/
def State.fetchInstr (s : State) : Except Cause Instr :=
  if s.pc.getLsbD 0 then .error (.fetchMisaligned s.pc)
  else
    match s.addressFault s.pc.toNat 2 with
    | some a => .error (.addressRange a s.pc)
    | none =>
      match decode [s.readByte s.pc.toNat, s.readByte (s.pc.toNat + 1)] with
      | .ok (i, _) => .ok i
      | .error _ => .error (.decodeError s.fetchWord s.pc)

/-- `s` with the instruction whose table bits are `w` in the two bytes its next fetch reads; the bits above `nbits` are
zero (log entry 12). -/
def State.placeWord (s : State) (nbits w : Nat) : State :=
  s.writeBytes s.pc.toNat (bytesOfWord (BitVec.ofNat 16 (w % 2 ^ nbits)))

end Sys2Proof.Machine
end

