-- ==== Sys2Proof/Machine/CoreStep.lean ====
section
/-! DEFINITION. `Step()`, the core's own step (10_state R26), on a state whose inputs are already presented. -/

namespace Sys2Proof.Machine

/-- `Step()`: fetch, decode, execute one instruction, or raise the first fault that applies. "When `status = FAILED` the core
has no step": the model answers the fault `coreFailed` (log entry 1). -/
def State.coreStep (s : State) : Host.Outcome State Fault Refusal :=
  match s.status with
  | .failed c => .fault (.coreFailed c)
  | .running =>
    match s.fetchInstr with
    | .ok i => exec i s
    | .error c => .next (s.raise c)

end Sys2Proof.Machine
end

