-- ==== Sys2Proof/Machine/Step.lean ====
section
/-! DEFINITION. One step of the model: the inputs and ticks of the step, then the core's `Step()`. -/

namespace Sys2Proof.Machine

/-- One step of the model. The step's inputs are presented and its ticks fall (`State.beginStep`, log entry 2), then the core
takes its step (10_state R26). -/
def step (s : State) : Host.Outcome State Fault Refusal := s.beginStep.coreStep

/-- `s` with the instruction whose table bits are `w` stored where the next step fetches (log entry 12). -/
def State.withFetchWord (s : State) (nbits w : Nat) : State := s.placeWord nbits w

end Sys2Proof.Machine
end

