-- ==== Sys2Proof/Machine/Assembler.lean ====
section
/-! DEFINITION. The instruction encoder on text (30_encoding Part B, R120 to R130): a mnemonic and operand strings to two bytes
or an error, and the printer. No step of the machine invokes it (R120). -/

namespace Sys2Proof.Machine

/-- A string as its characters. -/
abbrev Text := List Char

/-! ## Characters (30_encoding R121: comparison without regard to letter case; log entry 16) -/

/-- Upper case, `a`..`z` only. -/
def upperText (t : Text) : Text := t.map Char.toUpper

/-- The upper-case hex digit the printer writes for a nibble (R130). -/
def hexDigit (d : Nibble) : Char :=
  match d with
  | 0x0#4 => '0' | 0x1#4 => '1' | 0x2#4 => '2' | 0x3#4 => '3'
  | 0x4#4 => '4' | 0x5#4 => '5' | 0x6#4 => '6' | 0x7#4 => '7'
  | 0x8#4 => '8' | 0x9#4 => '9' | 0xA#4 => 'A' | 0xB#4 => 'B'
  | 0xC#4 => 'C' | 0xD#4 => 'D' | 0xE#4 => 'E' | _ => 'F'

/-- The value of a character read as a hex digit: the one whose printed digit it is (R124, R130). -/
def hexValue (c : Char) : Option Nat := (List.range 16).find? (fun v => hexDigit (BitVec.ofNat 4 v) == c)

/-- Whether a character is a hex digit. -/
def isHex (c : Char) : Bool := (hexValue c).isSome

/-- The number a string of hex digits writes after the digits worth `acc`; none when some character is no hex digit. -/
def hexNumberFrom (acc : Nat) : Text → Option Nat
  | [] => some acc
  | c :: t =>
    match hexValue c with
    | some d => hexNumberFrom (16 * acc + d) t
    | none => none

/-- The number that one or more hex digits write; "numbers are hexadecimal always" (R124). -/
def hexNumber (t : Text) : Option Nat := if t.isEmpty then none else hexNumberFrom 0 t

/-- The text without one leading `0X` (R123, R124). -/
def stripPrefix : Text → Text
  | '0' :: 'X' :: t => t
  | t => t

/-! ## Mnemonics (30_encoding R122) -/

/-- The canonical mnemonics. -/
inductive Mnemonic where
  | clear | ret | jump | call | skipEq | skipNe | load | add | or | and | xor | sub | subn | shr | shl | random | draw
  | skipKey | skipNKey
  deriving DecidableEq, Repr

/-- The canonical names. -/
def mnemonicText : Mnemonic → Text
  | .clear => ['C', 'L', 'E', 'A', 'R']
  | .ret => ['R', 'E', 'T', 'U', 'R', 'N']
  | .jump => ['J', 'U', 'M', 'P']
  | .call => ['C', 'A', 'L', 'L']
  | .skipEq => ['S', 'K', 'I', 'P', 'E', 'Q']
  | .skipNe => ['S', 'K', 'I', 'P', 'N', 'E']
  | .load => ['L', 'O', 'A', 'D']
  | .add => ['A', 'D', 'D']
  | .or => ['O', 'R']
  | .and => ['A', 'N', 'D']
  | .xor => ['X', 'O', 'R']
  | .sub => ['S', 'U', 'B']
  | .subn => ['S', 'U', 'B', 'N']
  | .shr => ['S', 'H', 'R']
  | .shl => ['S', 'H', 'L']
  | .random => ['R', 'A', 'N', 'D', 'O', 'M']
  | .draw => ['D', 'R', 'A', 'W']
  | .skipKey => ['S', 'K', 'I', 'P', 'K', 'E', 'Y']
  | .skipNKey => ['S', 'K', 'I', 'P', 'N', 'K', 'E', 'Y']

/-- The canonical names with what they stand for. -/
def mnemonicNames : List (Text × Mnemonic) :=
  [.clear, .ret, .jump, .call, .skipEq, .skipNe, .load,
    .add, .or, .and, .xor, .sub, .subn, .shr,
    .shl, .random, .draw, .skipKey, .skipNKey].map (fun m => (mnemonicText m, m))

/-- The alias table: shorthand names to canonical names. -/
def mnemonicAliases : List (Text × Text) := [
  (['C', 'L', 'S'], mnemonicText .clear),
  (['R', 'E', 'T'], mnemonicText .ret),
  (['J', 'P'], mnemonicText .jump),
  (['S', 'E'], mnemonicText .skipEq),
  (['S', 'N', 'E'], mnemonicText .skipNe),
  (['L', 'D'], mnemonicText .load),
  (['R', 'N', 'D'], mnemonicText .random),
  (['D', 'R', 'W'], mnemonicText .draw),
  (['S', 'K', 'P'], mnemonicText .skipKey),
  (['S', 'K', 'N', 'P'], mnemonicText .skipNKey)]

/-- The mnemonic of a string, upper-cased and alias-normalised; none for an unknown instruction. -/
def canonicalMnemonic (t : Text) : Option Mnemonic :=
  let u := upperText t
  mnemonicNames.lookup ((mnemonicAliases.lookup u).getD u)

/-! ## Operand shapes (30_encoding R123) -/

/-- The nine operand shapes. -/
inductive Shape where
  /-- `R`: a register. -/
  | register
  /-- `I`: the address register. -/
  | addressRegister
  /-- `DT`: the delay timer. -/
  | delayTimer
  /-- `ST`: the sound timer. -/
  | soundTimer
  /-- `K`: a keypress. -/
  | keypress
  /-- `B`: the BCD target. -/
  | bcdTarget
  /-- `F`: the font target. -/
  | fontTarget
  /-- `A`: a 12-bit address. -/
  | address
  /-- `KK`: an immediate byte. -/
  | byte
  deriving DecidableEq, Repr

/-- Test 1: `V` and a hex digit begin the string. -/
def looksLikeRegister : Text → Bool
  | 'V' :: c :: _ => isHex c
  | _ => false

/-- Test 3: after one leading `0X` is removed, exactly three hex digits. -/
def looksLikeAddress (t : Text) : Bool :=
  (stripPrefix t).length == 3 && (stripPrefix t).all isHex

/-- The shape of an upper-cased operand: the tests in their order, the first that succeeds decides. -/
def shapeOfUpper (t : Text) : Shape :=
  if looksLikeRegister t then .register
  else if t = ['I'] then .addressRegister
  else if t = ['D', 'T'] then .delayTimer
  else if t = ['S', 'T'] then .soundTimer
  else if t = ['K'] then .keypress
  else if t = ['B'] then .bcdTarget
  else if t = ['F'] then .fontTarget
  else if looksLikeAddress t then .address
  else .byte

/-- The shape of an operand string. -/
def shapeOf (t : Text) : Shape := shapeOfUpper (upperText t)

/-! ## Literals (30_encoding R124) -/

/-- The encoder's errors (30_encoding R128). They are errors of its caller, never faults of the machine. -/
inductive AsmError where
  /-- "the mnemonic is not registered". -/
  | unknownInstruction (mnemonic : Text)
  /-- "no candidate's shape sequence matches", `JUMP Vx, nnn` with x other than 0 included. -/
  | invalidOperands (mnemonic : Text) (operands : List Text)
  /-- A literal fails R124. -/
  | badLiteral (operand : Text)
  deriving DecidableEq, Repr

/-- The register an operand names: the digits after `V`, at most 15. -/
def parseRegister (t : Text) : Except AsmError Nibble :=
  match hexNumber ((upperText t).drop 1) with
  | some v => if v < 16 then .ok (BitVec.ofNat 4 v) else .error (.badLiteral t)
  | none => .error (.badLiteral t)

/-- The value of an address operand: its three digits. -/
def parseAddress (t : Text) : Except AsmError Addr12 :=
  match hexNumber (stripPrefix (upperText t)) with
  | some v => if v < 4096 then .ok (BitVec.ofNat 12 v) else .error (.badLiteral t)
  | none => .error (.badLiteral t)

/-- The value of a byte operand: one or more hex digits, at most 0xFF. -/
def parseByte (t : Text) : Except AsmError Byte :=
  match hexNumber (stripPrefix (upperText t)) with
  | some v => if v < 256 then .ok (BitVec.ofNat 8 v) else .error (.badLiteral t)
  | none => .error (.badLiteral t)

/-- The height operand of `DRAW`: a byte of at most 0x0F. -/
def parseHeight (t : Text) : Except AsmError Nibble :=
  match parseByte t with
  | .ok b => if b.toNat < 16 then .ok (b.truncate 4) else .error (.badLiteral t)
  | .error e => .error e

/-! ## The encoding table (30_encoding R125, R126) -/

/-- Register and byte. Literals are read from left to right (DEDUCED, log entry 15). -/
def asmRegByte (op : Nibble → Byte → Instr) (a b : Text) : Except AsmError Instr := do
  let x ← parseRegister a
  let kk ← parseByte b
  return op x kk

/-- Register and register. -/
def asmRegReg (op : Nibble → Nibble → Instr) (a b : Text) : Except AsmError Instr := do
  let x ← parseRegister a
  let y ← parseRegister b
  return op x y

/-- One register. -/
def asmReg (op : Nibble → Instr) (a : Text) : Except AsmError Instr := do
  let x ← parseRegister a
  return op x

/-- One address. -/
def asmAddr (op : Addr12 → Instr) (a : Text) : Except AsmError Instr := do
  let nnn ← parseAddress a
  return op nnn

/-- `JUMP V0, nnn`: "the register must be `V0`, else `InvalidOperands`". -/
def asmJumpV0 (mnemonic a b : Text) : Except AsmError Instr := do
  let x ← parseRegister a
  let nnn ← parseAddress b
  if x = 0x0#4 then return .jumpV0 nnn else .error (.invalidOperands mnemonic [a, b])

/-- `DRAW Vx, Vy, n`. -/
def asmDraw (a b c : Text) : Except AsmError Instr := do
  let x ← parseRegister a
  let y ← parseRegister b
  let n ← parseHeight c
  return .draw x y n

/-- The rows of one mnemonic without operands, or with one (R126). -/
def asmRow1 (m : Mnemonic) (sa : Shape) (a : Text) : Option (Except AsmError Instr) :=
  match m, sa with
  | .jump, .address => some (asmAddr .jump a)
  | .call, .address => some (asmAddr .call a)
  | .shr, .register => some (asmReg (fun x => .shr x 0x0#4) a)
  | .shl, .register => some (asmReg (fun x => .shl x 0x0#4) a)
  | .skipKey, .register => some (asmReg .skipKey a)
  | .skipNKey, .register => some (asmReg .skipNKey a)
  | _, _ => none

/-- The rows with two operands (R126); `mt` is the mnemonic as written, for the error. -/
def asmRow2 (m : Mnemonic) (sa sb : Shape) (mt a b : Text) : Option (Except AsmError Instr) :=
  match m, sa, sb with
  | .jump, .register, .address => some (asmJumpV0 mt a b)
  | .skipEq, .register, .byte => some (asmRegByte .skipEqImm a b)
  | .skipEq, .register, .register => some (asmRegReg .skipEqReg a b)
  | .skipNe, .register, .byte => some (asmRegByte .skipNeImm a b)
  | .skipNe, .register, .register => some (asmRegReg .skipNeReg a b)
  | .load, .register, .byte => some (asmRegByte .loadImm a b)
  | .load, .register, .register => some (asmRegReg .loadReg a b)
  | .load, .addressRegister, .address => some (asmAddr .loadI b)
  | .load, .register, .delayTimer => some (asmReg .loadFromDT a)
  | .load, .register, .keypress => some (asmReg .loadKey a)
  | .load, .delayTimer, .register => some (asmReg .loadDT b)
  | .load, .soundTimer, .register => some (asmReg .loadST b)
  | .load, .fontTarget, .register => some (asmReg .loadFont b)
  | .load, .bcdTarget, .register => some (asmReg .loadBcd b)
  | .load, .addressRegister, .register => some (asmReg .storeAll b)
  | .load, .register, .addressRegister => some (asmReg .loadAll a)
  | .add, .register, .byte => some (asmRegByte .addImm a b)
  | .add, .register, .register => some (asmRegReg .addReg a b)
  | .add, .addressRegister, .register => some (asmReg .addI b)
  | .or, .register, .register => some (asmRegReg .orReg a b)
  | .and, .register, .register => some (asmRegReg .andReg a b)
  | .xor, .register, .register => some (asmRegReg .xorReg a b)
  | .sub, .register, .register => some (asmRegReg .sub a b)
  | .subn, .register, .register => some (asmRegReg .subn a b)
  | .shr, .register, .register => some (asmRegReg .shr a b)
  | .shl, .register, .register => some (asmRegReg .shl a b)
  | .random, .register, .byte => some (asmRegByte .random a b)
  | _, _, _ => none

/-- The row that a mnemonic and its operands' shapes select, applied to the operands; none when no row matches (R125). -/
def asmRow (m : Mnemonic) (mt : Text) (operands : List Text) : Option (Except AsmError Instr) :=
  match operands with
  | [] =>
    match m with
    | .clear => some (.ok .clear)
    | .ret => some (.ok .ret)
    | _ => none
  | [a] => asmRow1 m (shapeOf a) a
  | [a, b] => asmRow2 m (shapeOf a) (shapeOf b) mt a b
  | [a, b, c] =>
    if m = .draw ∧ shapeOf a = .register ∧ shapeOf b = .register ∧ shapeOf c = .byte then some (asmDraw a b c) else none
  | _ => none

/-- The instruction that a mnemonic and its operands name, or the encoder's error. -/
def parseInstr (mnemonic : Text) (operands : List Text) : Except AsmError Instr :=
  match canonicalMnemonic mnemonic with
  | none => .error (.unknownInstruction mnemonic)
  | some m =>
    match asmRow m mnemonic operands with
    | none => .error (.invalidOperands mnemonic operands)
    | some r => r

/-- `encode(mnemonic, operandStrings) -> bytes | error` (R120): exactly two bytes, high byte first (R127). -/
def assemble (mnemonic : Text) (operands : List Text) : Except AsmError (List Byte) :=
  match parseInstr mnemonic operands with
  | .ok i => .ok (encodeBytes i)
  | .error e => .error e

/-- An assembled program: "one encoded instruction's bytes appended per source line" (R121, R127). DESIGN CHOICE (log entry
17): the first line that fails ends the assembly, with its error and line number, counted from `line`, and no bytes. -/
def assembleProgram (line : Nat) : List (Text × List Text) → Except (Nat × AsmError) (List Byte)
  | [] => .ok []
  | (m, ops) :: rest =>
    match assemble m ops with
    | .error e => .error (line, e)
    | .ok bs =>
      match assembleProgram (line + 1) rest with
      | .error e => .error e
      | .ok more => .ok (bs ++ more)

/-! ## The printer (30_encoding R130) -/

/-- A register: `V` and one digit. -/
def printReg (x : Nibble) : Text := ['V', hexDigit x]

/-- A byte: `0x` and two digits. -/
def printByte (b : Byte) : Text := ['0', 'x', hexDigit (b.extractLsb' 4 4), hexDigit (b.extractLsb' 0 4)]

/-- An address: `0x` and three digits. -/
def printAddr (a : Addr12) : Text :=
  ['0', 'x', hexDigit (a.extractLsb' 8 4), hexDigit (a.extractLsb' 4 4), hexDigit (a.extractLsb' 0 4)]

/-- The canonical mnemonic and operands of an instruction: the `assembly` column of 30_encoding R100. -/
def printInstr : Instr → Text × List Text
  | .clear => (mnemonicText .clear, [])
  | .ret => (mnemonicText .ret, [])
  | .jump nnn => (mnemonicText .jump, [printAddr nnn])
  | .call nnn => (mnemonicText .call, [printAddr nnn])
  | .skipEqImm x kk => (mnemonicText .skipEq, [printReg x, printByte kk])
  | .skipNeImm x kk => (mnemonicText .skipNe, [printReg x, printByte kk])
  | .skipEqReg x y => (mnemonicText .skipEq, [printReg x, printReg y])
  | .skipNeReg x y => (mnemonicText .skipNe, [printReg x, printReg y])
  | .loadImm x kk => (mnemonicText .load, [printReg x, printByte kk])
  | .loadReg x y => (mnemonicText .load, [printReg x, printReg y])
  | .addImm x kk => (mnemonicText .add, [printReg x, printByte kk])
  | .orReg x y => (mnemonicText .or, [printReg x, printReg y])
  | .andReg x y => (mnemonicText .and, [printReg x, printReg y])
  | .xorReg x y => (mnemonicText .xor, [printReg x, printReg y])
  | .addReg x y => (mnemonicText .add, [printReg x, printReg y])
  | .sub x y => (mnemonicText .sub, [printReg x, printReg y])
  | .shr x y => (mnemonicText .shr, [printReg x, printReg y])
  | .subn x y => (mnemonicText .subn, [printReg x, printReg y])
  | .shl x y => (mnemonicText .shl, [printReg x, printReg y])
  | .loadI nnn => (mnemonicText .load, [['I'], printAddr nnn])
  | .jumpV0 nnn => (mnemonicText .jump, [printReg 0x0#4, printAddr nnn])
  | .random x kk => (mnemonicText .random, [printReg x, printByte kk])
  | .draw x y n => (mnemonicText .draw, [printReg x, printReg y, printByte (n.zeroExtend 8)])
  | .skipKey x => (mnemonicText .skipKey, [printReg x])
  | .skipNKey x => (mnemonicText .skipNKey, [printReg x])
  | .loadFromDT x => (mnemonicText .load, [printReg x, ['D', 'T']])
  | .loadKey x => (mnemonicText .load, [printReg x, ['K']])
  | .loadDT x => (mnemonicText .load, [['D', 'T'], printReg x])
  | .loadST x => (mnemonicText .load, [['S', 'T'], printReg x])
  | .addI x => (mnemonicText .add, [['I'], printReg x])
  | .loadFont x => (mnemonicText .load, [['F'], printReg x])
  | .loadBcd x => (mnemonicText .load, [['B'], printReg x])
  | .storeAll x => (mnemonicText .load, [['I'], printReg x])
  | .loadAll x => (mnemonicText .load, [printReg x, ['I']])

/-- Operands joined by `, `. -/
def joinOperands : List Text → Text
  | [] => []
  | [a] => a
  | a :: rest => a ++ [',', ' '] ++ joinOperands rest

/-- The canonical text of an instruction: one space after the mnemonic, `, ` between operands (R130). -/
def printLine (i : Instr) : Text :=
  let p := printInstr i
  if p.2.isEmpty then p.1 else p.1 ++ [' '] ++ joinOperands p.2

end Sys2Proof.Machine
end

