-- ==== Sys2Proof/Machine/Agents.lean ====
section
/-! DEFINITION. The four agents' moves (00_scope R14), the run with its cancel signal (10_state R55, 60_exceptions R270) and
the snapshots (10_state R54). -/

namespace Sys2Proof.Machine

/-- A move of one of the agents of 00_scope R14. Any sequence of them is a run: "any interleaving at instruction boundaries
is allowed". -/
inductive Action where
  /-- The core's step, with the inputs presented to it. -/
  | step
  /-- One step of the tick agent between two core steps, on a failed machine too (60_exceptions R245, R262). -/
  | tick
  /-- The Input Source, the random source and the tick source fix the inputs of one more coming step (10_state R50 to R53). -/
  | supply (inp : StepInput)
  /-- The host's `RESET(image)` (70_reset R280). -/
  | reset (image : List Byte)
  deriving DecidableEq, Repr

/-- What an action does. -/
def act : Action → State → Host.Outcome State Fault Refusal
  | .step, s => step s
  | .tick, s => .next s.tick
  | .supply inp, s => .next { s with pending := s.pending ++ [inp] }
  | .reset image, s => .next (s.hostReset image)

/-- How a run answers its caller (60_exceptions R270, R272). DESIGN CHOICE (log entry 21): the spec says that a failing step
ends the run with its error surfaced, and the model's form of that answer is the cause with the state the run left. -/
inductive RunEnd where
  /-- `CANCEL` was seen: "not an error"; the state is the one the last completed step left. -/
  | cancelled (s : State)
  /-- A step failed: the cause it raised, and the state with `status = FAILED`. -/
  | failed (c : Cause) (s : State)
  /-- The samples given so far are used up and the run goes on from this state. -/
  | going (s : State)
  /-- The model's own stop at the step from this state (log entry 10); no run from a state that meets the invariant has it. -/
  | stopped (r : Fault) (s : State)
  /-- An instruction without a meaning at the step from this state; the model has none. -/
  | refused (r : Refusal) (s : State)
  deriving DecidableEq, Repr

/-- `run(cancel-signal)` (10_state R55, 60_exceptions R270): `step()` again and again "until the cancel signal is observed or
`step()` fails". The list holds the cancel signal as sampled before each step (log entry 18). A step that fails ends the run
at once, and `CANCEL` is not sampled again. DESIGN CHOICE: a run begun on a machine that has already failed answers its cause,
whatever the signal (log entry 21); a held step of the key wait samples the signal like any other, so the run returns during
a hold, which R270 leaves to the host (log entry 18). -/
def runUntil (cancels : List Bool) (s : State) : RunEnd :=
  match cancels, s.status with
  | _, .failed c => .failed c s
  | [], .running => .going s
  | true :: _, .running => .cancelled s
  | false :: later, .running =>
    match step s with
    | .next t => runUntil later t
    | .fault r => .stopped r s
    | .refused r => .refused r s

/-- `SNAPSHOT` (10_state R54). -/
structure Snapshot where
  pc : Word
  sp : Byte
  stack : Vector Word 16
  v : Vector Byte 16
  i : Word
  dt : Byte
  st : Byte
  deriving DecidableEq, Repr

/-- The state export: a copy of the registers, taken between steps (10_state R54). Main memory is not in it. -/
def State.snapshot (s : State) : Snapshot :=
  { pc := s.pc, sp := s.sp, stack := s.stack, v := s.v, i := s.i, dt := s.dt, st := s.st }

/-- `FRAME`: the 256 bytes of `Disp` in index order (10_state R54, 44_draw R201). -/
def State.frame (s : State) : List Byte := s.disp.toList

/-- The numeric code of a fault cause (60_exceptions R242). -/
def causeCode : Cause → Nat
  | .loadCapacity _ => 1
  | .decodeError _ _ => 2
  | .stackOverflow _ => 3
  | .stackUnderflow _ => 4
  | .fetchMisaligned _ => 5
  | .addressRange _ _ => 6

/-- `STATUS` (10_state R44, R48) as one number: the code of the cause (60_exceptions R242) on a failed machine, without its
information. DESIGN CHOICE (log entry 20): the spec gives no number for `RUNNING`, and 0 is the model's. -/
def State.statusCode (s : State) : Nat :=
  match s.status with
  | .running => 0
  | .failed c => causeCode c

end Sys2Proof.Machine
end

