-- ==== Sys2Proof/Safety.lean ====
section
/-! DEFINITION. What a good state is, and what an instruction leaves unchanged: the terms the statements use. -/

namespace Sys2Proof.Machine

/-- The memory is in canonical form (Machine/Memory.lean). -/
abbrev State.memOk (s : State) : Prop := Memory.wf s.config s.mem

/-- The stack pointer is legal: "0 <= `SP` <= 16 in every reachable state" (10_state R38). -/
abbrev State.spOk (s : State) : Prop := s.sp.toNat ≤ 16

/-- Every live return address is even (40_flow R142: a popped value is "always even when the CALL stood at an even address",
and every CALL that executes stands at one, 10_state R26). -/
abbrev State.returnsEven (s : State) : Prop :=
  ∀ (k : Nat) (h : k < 16), k < s.sp.toNat → s.stack[k].getLsbD 0 = false

/-- The invariant every step keeps. -/
abbrev State.Inv (s : State) : Prop := s.memOk ∧ s.spOk ∧ s.returnsEven

/-- Every register outside `ws` is unchanged. -/
abbrev sameRegsExcept (ws : List Nibble) (s t : State) : Prop := ∀ r, r ∉ ws → t.reg r = s.reg r

/-- Every byte of memory reads as before. -/
abbrev sameMem (s t : State) : Prop := ∀ a, t.readByte a = s.readByte a

/-- `SP` and every stack entry are unchanged. -/
abbrev sameStack (s t : State) : Prop := t.sp = s.sp ∧ t.stack = s.stack

/-- Both timers are unchanged. -/
abbrev sameTimers (s t : State) : Prop := t.dt = s.dt ∧ t.st = s.st

/-- The run status, the parameters and everything that belongs to the other agents are unchanged. -/
abbrev sameContext (s t : State) : Prop :=
  t.status = s.status ∧ t.config = s.config ∧ t.input = s.input ∧ t.pending = s.pending ∧ t.steps = s.steps

/-- The frame of an instruction that writes only registers of `ws` and `pc`. -/
abbrev onlyRegs (ws : List Nibble) (s t : State) : Prop :=
  sameRegsExcept ws s t ∧ t.i = s.i ∧ sameMem s t ∧ t.disp = s.disp ∧ sameStack s t ∧ sameTimers s t ∧ sameContext s t

/-- The step reads an instruction at `pc`: even, and its two bytes in range under the policy (10_state R26, R28,
60_exceptions R251). -/
abbrev State.canFetch (s : State) : Prop :=
  s.pc.getLsbD 0 = false ∧ (s.config.addrPolicy = .mask ∨ s.pc.toNat ≤ 0x0FFE)

/-- The `count` bytes from `I` are accessible: the policy is `mask`, or none of them is above 0x0FFF (60_exceptions R251). -/
abbrev State.canAccess (s : State) (count : Nat) : Prop :=
  s.config.addrPolicy = .mask ∨ count = 0 ∨ s.i.toNat + (count - 1) ≤ 0x0FFF

/-- Ticks come again and again: the fairness of the tick agent that a liveness claim needs as a premise, and no other claim
(60_exceptions R263). -/
abbrev TicksFair : Prop := ∀ n : Nat, ∃ k, n ≤ k ∧ 0 < Config.freeTicks k

/-- The register an instruction writes its result to, if it has one (the `V[x] <-` of its rule). -/
def destReg : Instr → Option Nibble
  | .loadImm x _ | .loadReg x _ | .addImm x _ | .orReg x _ | .andReg x _ | .xorReg x _ | .addReg x _ | .sub x _
  | .shr x _ | .subn x _ | .shl x _ | .random x _ | .loadFromDT x | .loadKey x => some x
  | _ => none

/-- The instructions that write a flag outcome into `VF`: the table of 10_state R24. -/
def writesFlag : Instr → Bool
  | .addReg _ _ | .sub _ _ | .shr _ _ | .subn _ _ | .shl _ _ | .draw _ _ _ => true
  | _ => false

/-- The instructions that may write `pc` themselves (10_state R27): JUMP, CALL, RETURN, JUMP V0 and the skips; and the key
wait, which leaves it alone while it holds. -/
def steersPc : Instr → Bool
  | .jump _ | .call _ | .ret | .jumpV0 _ | .skipEqImm _ _ | .skipNeImm _ _ | .skipEqReg _ _ | .skipNeReg _ _
  | .skipKey _ | .skipNKey _ | .loadKey _ => true
  | _ => false

/-- The words the encoding leaves illegal, class by class (30_encoding R104). -/
abbrev illegalWord (w : Nat) : Prop :=
  (w / 4096 = 0x0 ∧ w ≠ 0x00E0 ∧ w ≠ 0x00EE) ∨
  (w / 4096 = 0x5 ∧ w % 16 ≠ 0x0) ∨
  (w / 4096 = 0x9 ∧ w % 16 ≠ 0x0) ∨
  (w / 4096 = 0x8 ∧ w % 16 ∈ [0x8, 0x9, 0xA, 0xB, 0xC, 0xD, 0xF]) ∨
  (w / 4096 = 0xE ∧ w % 256 ∉ [0x9E, 0xA1]) ∨
  (w / 4096 = 0xF ∧ w % 256 ∉ [0x07, 0x0A, 0x15, 0x18, 0x1E, 0x29, 0x33, 0x55, 0x65])

/-- Whether the sprite `sprite` written at (`x`, `y`) has a set bit over pixel (`px`, `py`) of the 64 x 32 display: row
`py - y` of the sprite counted modulo 32, its pixel `px - x` from the left counted modulo 64 (44_draw R198, "in pixel
terms"). -/
def spriteCovers (sprite : List Byte) (x y px py : Nat) : Bool :=
  let row := (py + 32 - y % 32) % 32
  let col := (px + 64 - x % 64) % 64
  col < 8 && (sprite.getD row 0x00#8).getLsbD (7 - col)

end Sys2Proof.Machine
end

