-- ==== Sys2Proof/Certificates/Slice0/Obligations.lean ====
section
/-! DEFINITION. The statements for the provers. Each cites the rule of spec/ it formalises; `exec i s = .next t` is the
completion of an instruction, and the clauses after it are its effect and its frame. A frame of the form
`{ t with pc := s.pc, .. } = s` says that every field of the state but those listed is as before: all of memory (so every
address reads as before), the display, the stack, the timers, the status, the parameters and the other agents' inputs;
`onlyRegs` (Safety.lean) says the same for an instruction that writes registers. -/

open Sys2Proof Sys2Proof.Machine

/-! ## Encoding -/

/-- The four encodings the source itself gives (30_encoding R98), as bytes in memory order. -/
def Obligations.SourceEncodingsDecode : Prop :=
  decode [0x61, 0x11] = .ok (.loadImm 0x1 0x11, []) ∧ decode [0x77, 0x51] = .ok (.addImm 0x7 0x51, []) ∧
  decode [0xD1, 0x23] = .ok (.draw 0x1 0x2 0x3, []) ∧ decode [0x00, 0xE0] = .ok (.clear, [])

/-- One written-out word of every family decodes to its instruction (30_encoding R100, whose other opcode numbers the spec
marks as general knowledge: log entry 14). -/
def Obligations.ConventionalEncodingsDecode : Prop :=
  decodeWord 0x00EE = some .ret ∧ decodeWord 0x1204 = some (.jump 0x204) ∧ decodeWord 0x2210 = some (.call 0x210) ∧
  decodeWord 0x3F01 = some (.skipEqImm 0xF 0x01) ∧ decodeWord 0x9120 = some (.skipNeReg 0x1 0x2) ∧
  decodeWord 0x8127 = some (.subn 0x1 0x2) ∧ decodeWord 0x812E = some (.shl 0x1 0x2) ∧
  decodeWord 0xA20C = some (.loadI 0x20C) ∧ decodeWord 0xBFFF = some (.jumpV0 0xFFF) ∧
  decodeWord 0xC30F = some (.random 0x3 0x0F) ∧ decodeWord 0xE29E = some (.skipKey 0x2) ∧
  decodeWord 0xF20A = some (.loadKey 0x2) ∧ decodeWord 0xF255 = some (.storeAll 0x2) ∧
  decodeWord 0x5121 = none ∧ decodeWord 0x8128 = none ∧ decodeWord 0xE19F = none ∧ decodeWord 0xF130 = none

/-- Decoding an encoded instruction gives it back with every operand, whatever bytes follow (30_encoding R129). -/
def Obligations.DecodeAfterEncode : Prop :=
  ∀ (i : Instr) (rest : List Byte), decode (encodeBytes i ++ rest) = .ok (i, rest)

/-- Every word that decodes is the encoding of what it decodes to, so no two instructions share a word and no bit of a legal
word is dropped (30_encoding R102, R129). -/
def Obligations.EncodeAfterDecode : Prop :=
  ∀ (w : Word) (i : Instr), decodeWord w = some i → encode i = w

/-- The illegal words are exactly those listed, and a core step that fetches one raises `DecodeError(w, pc)` and changes nothing
else: `pc` still points at the word (30_encoding R104, 60_exceptions R246). -/
def Obligations.IllegalWordsRaiseDecodeError : Prop :=
  (∀ w : Word, decodeWord w = none ↔ illegalWord w.toNat) ∧
  ∀ s : State, s.status = .running → s.canFetch → illegalWord s.fetchWord.toNat →
    s.coreStep = .next { s with status := .failed (.decodeError s.fetchWord s.pc) }

/-- The encoder turns the printed text of an instruction into the instruction's own bytes (30_encoding R130). -/
def Obligations.AssembleAfterPrint : Prop :=
  ∀ i : Instr, assemble (printInstr i).1 (printInstr i).2 = .ok (encodeBytes i)

/-- Whatever the encoder accepts, it answers exactly two bytes, and they decode to the instruction the text names with the
operands it gives (30_encoding R120, R129). -/
def Obligations.AssembledBytesDecode : Prop :=
  ∀ (m : Text) (ops : List Text) (bs : List Byte), assemble m ops = .ok bs →
    bs.length = 2 ∧ ∃ i, parseInstr m ops = .ok i ∧ decode bs = .ok (i, [])

/-- The encoder reports an unknown instruction exactly for the mnemonics that are not registered (30_encoding R122, R128). -/
def Obligations.UnknownMnemonicsOnly : Prop :=
  ∀ (m m' : Text) (ops : List Text),
    assemble m ops = .error (.unknownInstruction m') ↔ canonicalMnemonic m = none ∧ m' = m

/-! ## The step -/

/-- A step of a running core executes the instruction that the two bytes at `pc` decode to (10_state R26), on the state in
which the step's inputs are presented and its ticks have fallen, with nothing else changed. That a model step takes its
ticks first is the model's choice (log entry 2). -/
def Obligations.StepRunsDecodedInstruction : Prop :=
  ∀ (s : State) (i : Instr), s.status = .running → s.canFetch → decodeWord s.fetchWord = some i →
    step s = exec i s.beginStep ∧
    s.beginStep.input = s.nextInput ∧ s.beginStep.dt.toNat = s.dt.toNat - s.nextInput.ticks ∧
    s.beginStep.st.toNat = s.st.toNat - s.nextInput.ticks ∧ s.beginStep.pending = s.pending.tail ∧
    s.beginStep.steps = s.steps + 1 ∧
    { s.beginStep with
      input := s.input, dt := s.dt, st := s.st, pending := s.pending, steps := s.steps } = s

/-- A word stored where the next step fetches is the word that step runs: a store is seen by the very next fetch (20_memory
R64, R75; the step's inputs and ticks come first, log entry 2; `withFetchWord` is log entry 12's). -/
def Obligations.PlacedWordRuns : Prop :=
  ∀ (s : State) (w : Word), s.status = .running → s.canFetch →
    step (s.withFetchWord 16 w.toNat) =
      match decodeWord w with
      | some i => exec i (s.withFetchWord 16 w.toNat).beginStep
      | none => .next ((s.withFetchWord 16 w.toNat).beginStep.raise (.decodeError w s.pc))

/-- An odd `pc` at fetch raises `FetchMisaligned(pc)`, whatever memory holds there, and nothing else changes (60_exceptions
R247). -/
def Obligations.OddPcRaisesMisaligned : Prop :=
  ∀ s : State, s.status = .running → s.pc.getLsbD 0 = true →
    s.coreStep = .next { s with status := .failed (.fetchMisaligned s.pc) }

/-- Under the policy `fault`, a fetch above 0x0FFE raises `AddressRange`, and so do DRAW and the BCD and bulk transfers whose
range passes 0x0FFF, before any byte is accessed (60_exceptions R251). That the address recorded is the first one out of
range is the model's reading (log entry 9). -/
def Obligations.OutOfRangeRaisesAddressRange : Prop :=
  (∀ s : State, s.status = .running → s.pc.getLsbD 0 = false → s.config.addrPolicy = .fault → 0x0FFE < s.pc.toNat →
    s.coreStep = .next { s with status := .failed (.addressRange s.pc.toNat s.pc) }) ∧
  ∀ (s : State) (x y n : Nibble), s.config.addrPolicy = .fault →
    let out : Host.Outcome State Fault Refusal :=
      .next { s with status := .failed (.addressRange (if 0x1000 ≤ s.i.toNat then s.i.toNat else 0x1000) s.pc) }
    (0 < n.toNat ∧ 0x0FFF < s.i.toNat + (n.toNat - 1) → exec (.draw x y n) s = out) ∧
    (0x0FFF < s.i.toNat + 2 → exec (.loadBcd x) s = out) ∧
    (0x0FFF < s.i.toNat + 15 → exec (.storeAll x) s = out ∧ exec (.loadAll x) s = out)

/-- `FAILED` is terminal: the core has no step, the tick agent may still decrement the timers, and of all the agents' moves
only reset leaves the status (60_exceptions R245). That "no step" is the model's fault `coreFailed` is log entry 1's choice. -/
def Obligations.FailedIsTerminal : Prop :=
  ∀ (s : State) (c : Cause), s.status = .failed c →
    step s = .fault (.coreFailed c) ∧
    (∃ t, act .tick s = .next t ∧ t.dt.toNat = s.dt.toNat - 1 ∧ t.st.toNat = s.st.toNat - 1) ∧
    ∀ (a : Action) (t : State), act a s = .next t → t.status ≠ .failed c → ∃ image, a = .reset image

/-- A core step that raises a fault writes the status and nothing else: every register, `pc`, memory, the display and the
timers are as the previous step left them (60_exceptions R244). -/
def Obligations.RaisingChangesOnlyStatus : Prop :=
  ∀ (s t : State) (c : Cause), s.coreStep = .next t → t.status = .failed c →
    s.status = .running ∧ t = { s with status := .failed c }

/-- Which core step reports which cause: the table of causes with the order of the checks (60_exceptions R242, R252). No
other condition faults, and no step reports `LoadCapacity`. That a fetch out of range records `pc` as the address is the
model's reading (log entry 9). -/
def Obligations.CausesOfFaults : Prop :=
  ∀ (s t : State) (c : Cause), s.coreStep = .next t → t.status = .failed c →
    (c = .fetchMisaligned s.pc ∧ s.pc.getLsbD 0 = true) ∨
    (s.pc.getLsbD 0 = false ∧ c = .addressRange s.pc.toNat s.pc ∧ s.config.addrPolicy = .fault ∧ 0x0FFE < s.pc.toNat) ∨
    (s.canFetch ∧ c = .decodeError s.fetchWord s.pc ∧ decodeWord s.fetchWord = none) ∨
    (s.canFetch ∧ c = .stackOverflow s.pc ∧ (∃ nnn, decodeWord s.fetchWord = some (.call nnn)) ∧ 16 ≤ s.sp.toNat) ∨
    (s.canFetch ∧ c = .stackUnderflow s.pc ∧ decodeWord s.fetchWord = some .ret ∧ s.sp = 0x00#8) ∨
    (s.canFetch ∧ s.config.addrPolicy = .fault ∧ ∃ i count a, decodeWord s.fetchWord = some i ∧ c = .addressRange a s.pc ∧
      0 < count ∧ 0x0FFF < s.i.toNat + (count - 1) ∧
      ((∃ x y n, i = .draw x y n ∧ count = n.toNat) ∨ (∃ x, i = .loadBcd x ∧ count = 3) ∨
        (∃ x, i = .storeAll x ∧ count = 16) ∨ ∃ x, i = .loadAll x ∧ count = 16))

/-- One tick decrements each timer that is not zero, and changes nothing else (60_exceptions R262). -/
def Obligations.TickDecrementsTimers : Prop :=
  ∀ s : State, ∃ t, act .tick s = .next t ∧
    t.dt = (if s.dt = 0x00#8 then 0x00#8 else s.dt - 1#8) ∧ t.st = (if s.st = 0x00#8 then 0x00#8 else s.st - 1#8) ∧
    { t with dt := s.dt, st := s.st } = s

/-- A run checks the cancel signal before every step and ends when it is seen or a step fails (10_state R55, 60_exceptions
R270). Seen after `k` steps that leave the machine running, it ends the run with the state of the last of them. A step that
fails ends the run at once with its cause and the state it left, whatever the signal is later. A cancelled run leaves
`RUNNING`, a failed one `FAILED`. The signal as a list of samples and the form of the answer are the model's choices (log
entries 18, 21). -/
def Obligations.CancelFallsBetweenSteps : Prop :=
  (∀ (k : Nat) (later : List Bool) (s t : State), Host.Core.run Sys2Proof.core k s = .next t → t.status = .running →
    runUntil (List.replicate k false ++ true :: later) s = .cancelled t) ∧
  (∀ (k : Nat) (later : List Bool) (s u t : State) (c : Cause), Host.Core.run Sys2Proof.core k s = .next u →
    step u = .next t → t.status = .failed c →
    runUntil (List.replicate (k + 1) false ++ later) s = .failed c t) ∧
  ∀ (cancels : List Bool) (s t : State), (runUntil cancels s = .cancelled t → t.status = .running) ∧
    ∀ c : Cause, runUntil cancels s = .failed c t → t.status = .failed c

/-! ## Reset -/

/-- The machine at reset with nothing loaded (10_state R56 with an empty image): the fixed values and an all-zero rest but for
the glyphs, whose bytes and the policy `mask` are the spec's defaults (log entries 7, 8; the zeros, log entry 13). -/
def Obligations.ResetValues : Prop :=
  State.reset.pc = 0x0200#16 ∧ State.reset.sp = 0x00#8 ∧ State.reset.i = 0x0000#16 ∧ State.reset.dt = 0x00#8 ∧
  State.reset.st = 0x00#8 ∧
  State.reset.status = .running ∧ State.reset.config.addrPolicy = .mask ∧
  (∀ r, State.reset.reg r = 0x00#8) ∧ (∀ (k : Nat) (h : k < 16), State.reset.stack[k] = 0x0000#16) ∧
  (∀ px py, pixel State.reset.disp px py = false) ∧
  (∀ (a : Nat) (h : a < 80), State.reset.readByte a = State.reset.config.font[a]) ∧
  ∀ a, 80 ≤ a → a < 4096 → State.reset.readByte a = 0x00#8

/-- `RESET(image)` for an image of at most 3584 bytes sets every piece of state as tabulated: the image at 0x200, `FONT` at
0x000, zero elsewhere (70_reset R281, 10_state R56, 20_memory R61). -/
def Obligations.ResetLoadsImage : Prop :=
  ∀ (s : State) (image : List Byte), image.length ≤ 3584 →
    ∃ t, act (.reset image) s = .next t ∧
      t.pc = 0x0200#16 ∧ t.sp = 0x00#8 ∧ t.i = 0x0000#16 ∧ t.dt = 0x00#8 ∧ t.st = 0x00#8 ∧ t.status = .running ∧
      (∀ r, t.reg r = 0x00#8) ∧ (∀ (k : Nat) (h : k < 16), t.stack[k] = 0x0000#16) ∧ (∀ (k : Nat) (h : k < 256), t.disp[k] = 0x00#8) ∧
      (∀ (j : Nat) (h : j < image.length), t.readByte (0x200 + j) = image[j]) ∧
      (∀ (a : Nat) (h : a < 80), t.readByte a = s.config.font[a]) ∧
      ∀ a, 80 ≤ a → a < 0x200 ∨ 0x200 + image.length ≤ a → a < 4096 → t.readByte a = 0x00#8

/-- A longer image leaves `FAILED(LoadCapacity, length)`; no step can follow, until a reset with an acceptable image
(60_exceptions R250). That "no step" is the model's fault `coreFailed` is log entry 1's choice. -/
def Obligations.OversizeImageFailsToLoad : Prop :=
  ∀ (s : State) (image : List Byte), 3584 < image.length →
    (s.hostReset image).status = .failed (.loadCapacity image.length) ∧
    step (s.hostReset image) = .fault (.coreFailed (.loadCapacity image.length)) ∧
    ∀ good : List Byte, good.length ≤ 3584 → ((s.hostReset image).hostReset good).status = .running

/-- The first core step after `RESET(image)` executes the word of the image's first two bytes, a missing byte being 0x00; the
empty image raises `DecodeError(0x0000, 0x0200)` (70_reset R286). -/
def Obligations.FirstStepAfterReset : Prop :=
  ∀ (s : State) (image : List Byte), image.length ≤ 3584 →
    let w := wordOfBytes (image.getD 0 0x00#8) (image.getD 1 0x00#8)
    (s.hostReset image).coreStep =
      match decodeWord w with
      | some i => exec i (s.hostReset image)
      | none => .next { s.hostReset image with status := .failed (.decodeError w 0x0200#16) }

/-! ## Invariants -/

/-- Every step keeps the invariant: memory in canonical form, `SP` at most 16, live return addresses even (10_state R38,
40_flow R142). -/
def Obligations.StepKeepsInvariant : Prop :=
  ∀ s t : State, s.Inv → step s = .next t → t.Inv

/-- The invariant holds at reset. -/
def Obligations.ResetMeetsInvariant : Prop := State.reset.Inv

/-- It also holds after a reset with any acceptable image, whatever the machine was before (70_reset R281, R285). -/
def Obligations.LoadedMachineMeetsInvariant : Prop :=
  ∀ (s : State) (image : List Byte), image.length ≤ 3584 → (s.hostReset image).Inv

/-- No step changes the parameters `ADDR_POLICY` and `FONT` (00_scope R6: every size and parameter is fixed). -/
def Obligations.StepKeepsParameters : Prop :=
  ∀ s t : State, step s = .next t → t.config = s.config

/-- With the invariant no step of a running core stops: no instruction is refused, and RETURN never meets a stack pointer out
of range (10_state R26, R38). The form of the answer is the model's choice: a raising step is a next state (log entry 1), so is
a hold of the key wait, in which the spec's core takes no step (log entry 4), and RETURN stops only with `SP` above 16 (log
entry 10). -/
def Obligations.RunningCoreAlwaysSteps : Prop :=
  ∀ s : State, s.Inv → s.status = .running → ∃ t, step s = .next t

/-! ## Whole-machine rules: who writes what -/

/-- Only CLEAR and DRAW write the display (10_state R34). -/
def Obligations.DisplayWriters : Prop :=
  ∀ (i : Instr) (s t : State), exec i s = .next t → t.disp ≠ s.disp → i = .clear ∨ ∃ x y n, i = .draw x y n

/-- Only CALL and RETURN write `SP`, and only CALL the stack (40_flow R148, 10_state R36, R37). -/
def Obligations.StackWriters : Prop :=
  ∀ (i : Instr) (s t : State), exec i s = .next t →
    (t.sp ≠ s.sp → i = .ret ∨ ∃ nnn, i = .call nnn) ∧ (t.stack ≠ s.stack → ∃ nnn, i = .call nnn)

/-- Only `LOAD DT, Vx` and `LOAD ST, Vx` among the instructions write the timers (10_state R39, R40). -/
def Obligations.TimerWriters : Prop :=
  ∀ (i : Instr) (s t : State), exec i s = .next t →
    (t.dt ≠ s.dt → ∃ x, i = .loadDT x) ∧ (t.st ≠ s.st → ∃ x, i = .loadST x)

/-- Only `LOAD I, nnn`, `ADD I, Vx` and `LOAD F, Vx` write `I` (10_state R30). -/
def Obligations.AddressRegisterWriters : Prop :=
  ∀ (i : Instr) (s t : State), exec i s = .next t → t.i ≠ s.i →
    (∃ nnn, i = .loadI nnn) ∨ (∃ x, i = .addI x) ∨ ∃ x, i = .loadFont x

/-- Only the BCD store and the bulk store write memory (20_memory R66). -/
def Obligations.MemoryWriters : Prop :=
  ∀ (i : Instr) (s t : State) (a : Nat), exec i s = .next t → t.readByte a ≠ s.readByte a →
    (∃ x, i = .loadBcd x) ∨ ∃ x, i = .storeAll x

/-- A register changes only as the instruction's result, as `VF` under one of the six flag instructions, or by the bulk load
(10_state R21, R24). -/
def Obligations.RegisterWriters : Prop :=
  ∀ (i : Instr) (s t : State) (r : Nibble), exec i s = .next t → t.reg r ≠ s.reg r →
    destReg i = some r ∨ (r = 0xF#4 ∧ writesFlag i = true) ∨ ∃ x, i = .loadAll x

/-- An instruction that is no control transfer leaves `pc` to the default advance, unless it raises a fault (10_state R27). -/
def Obligations.DefaultAdvance : Prop :=
  ∀ (i : Instr) (s t : State), steersPc i = false → exec i s = .next t →
    t.pc.toNat = (s.pc.toNat + 2) % 65536 ∨ (t.pc = s.pc ∧ ∃ c, t.status = .failed c)

/-! ## CLEAR, RETURN, JUMP, CALL -/

/-- `CLEAR` zeroes the 256 display bytes and changes nothing else but `pc` (40_flow R140). -/
def Obligations.ClearZeroesDisplay : Prop :=
  ∀ s : State, ∃ t, exec .clear s = .next t ∧ (∀ (k : Nat) (h : k < 256), t.disp[k] = 0x00#8) ∧ t.pc = s.pc + 2#16 ∧
    { t with disp := s.disp, pc := s.pc } = s

/-- `RETURN` pops the top return address into `pc`; the popped entry keeps its value; with none live it raises
`StackUnderflow` and changes nothing else (40_flow R142). -/
def Obligations.ReturnPops : Prop :=
  (∀ s : State, 0 < s.sp.toNat → s.sp.toNat ≤ 16 → ∃ t, exec .ret s = .next t ∧
    t.sp.toNat = s.sp.toNat - 1 ∧ (∀ (k : Nat) (h : k < 16), k + 1 = s.sp.toNat → t.pc = s.stack[k]) ∧
    { t with sp := s.sp, pc := s.pc } = s) ∧
  ∀ s : State, s.sp = 0x00#8 → exec .ret s = .next { s with status := .failed (.stackUnderflow s.pc) }

/-- `JUMP nnn` writes `pc` and nothing else (40_flow R144). -/
def Obligations.JumpWritesPc : Prop :=
  ∀ (nnn : Addr12) (s : State), ∃ t, exec (.jump nnn) s = .next t ∧ t.pc.toNat = nnn.toNat ∧ { t with pc := s.pc } = s

/-- `CALL nnn` pushes the address of the next instruction and jumps; with 16 return addresses live it raises `StackOverflow`
and changes nothing else (40_flow R146). -/
def Obligations.CallPushes : Prop :=
  (∀ (nnn : Addr12) (s : State), s.sp.toNat < 16 → ∃ t, exec (.call nnn) s = .next t ∧
    t.sp.toNat = s.sp.toNat + 1 ∧ t.pc.toNat = nnn.toNat ∧
    (∀ (k : Nat) (h : k < 16),
      t.stack[k].toNat = if k = s.sp.toNat then (s.pc.toNat + 2) % 65536 else s.stack[k].toNat) ∧
    { t with sp := s.sp, stack := s.stack, pc := s.pc } = s) ∧
  ∀ (nnn : Addr12) (s : State), 16 ≤ s.sp.toNat →
    exec (.call nnn) s = .next { s with status := .failed (.stackOverflow s.pc) }

/-! ## Skips -/

/-- The four register skips move `pc` by 4 when their condition holds and by 2 when it does not, modulo 65536, and change
nothing else (41_skip R150 to R153). -/
def Obligations.RegisterSkips : Prop :=
  ∀ (x y : Nibble) (kk : Byte) (s : State),
    let moves (i : Instr) (cond : Prop) : Prop := ∃ t, exec i s = .next t ∧
      (cond → t.pc.toNat = (s.pc.toNat + 4) % 65536) ∧ (¬cond → t.pc.toNat = (s.pc.toNat + 2) % 65536) ∧
      { t with pc := s.pc } = s
    moves (.skipEqImm x kk) (s.reg x = kk) ∧ moves (.skipNeImm x kk) (s.reg x ≠ kk) ∧
    moves (.skipEqReg x y) (s.reg x = s.reg y) ∧ moves (.skipNeReg x y) (s.reg x ≠ s.reg y)

/-- The key skips: the key is the whole byte `V[x]`, and one of 16 or above is never down (45_keys R208, R210, R212). -/
def Obligations.KeySkips : Prop :=
  ∀ (x : Nibble) (s : State),
    let down : Prop := ∃ k : Nat, k < 16 ∧ (s.reg x).toNat = k ∧ s.input.pressed.getLsbD k = true
    let moves (i : Instr) (cond : Prop) : Prop := ∃ t, exec i s = .next t ∧
      (cond → t.pc.toNat = (s.pc.toNat + 4) % 65536) ∧ (¬cond → t.pc.toNat = (s.pc.toNat + 2) % 65536) ∧
      { t with pc := s.pc } = s
    moves (.skipKey x) down ∧ moves (.skipNKey x) (¬down)

/-! ## Loads and the ALU -/

/-- `LOAD Vx, kk` and `LOAD Vx, Vy` (42_load_alu R160, R161). -/
def Obligations.LoadRegister : Prop :=
  ∀ (x y : Nibble) (kk : Byte) (s : State),
    (∃ t, exec (.loadImm x kk) s = .next t ∧ t.reg x = kk ∧ t.pc = s.pc + 2#16 ∧ onlyRegs [x] s t) ∧
    ∃ t, exec (.loadReg x y) s = .next t ∧ t.reg x = s.reg y ∧ t.pc = s.pc + 2#16 ∧ onlyRegs [x] s t

/-- `ADD Vx, kk` wraps modulo 256 and touches no flag (42_load_alu R162). -/
def Obligations.AddImmediateWraps : Prop :=
  ∀ (x : Nibble) (kk : Byte) (s : State), ∃ t, exec (.addImm x kk) s = .next t ∧
    (t.reg x).toNat = ((s.reg x).toNat + kk.toNat) % 256 ∧ t.pc = s.pc + 2#16 ∧ onlyRegs [x] s t

/-- `OR`, `AND` and `XOR`, bit by bit; `VF` is not written, unless it is `V[x]` (42_load_alu R164, R165, R166). -/
def Obligations.BitwiseOperations : Prop :=
  ∀ (x y : Nibble) (s : State),
    let bits (i : Instr) (f : Bool → Bool → Bool) : Prop := ∃ t, exec i s = .next t ∧
      (∀ k, k < 8 → (t.reg x).getLsbD k = f ((s.reg x).getLsbD k) ((s.reg y).getLsbD k)) ∧
      t.pc = s.pc + 2#16 ∧ onlyRegs [x] s t
    bits (.orReg x y) (· || ·) ∧ bits (.andReg x y) (· && ·) ∧ bits (.xorReg x y) (fun a b => a != b)

/-- `ADD Vx, Vy`: the sum modulo 256, and `VF` is the carry, unless `x` is 15 and the result overwrites it (42_load_alu
R167). -/
def Obligations.AddSetsCarry : Prop :=
  ∀ (x y : Nibble) (s : State), ∃ t, exec (.addReg x y) s = .next t ∧
    (t.reg x).toNat = ((s.reg x).toNat + (s.reg y).toNat) % 256 ∧
    (x ≠ 0xF#4 → t.reg 0xF#4 = if 255 < (s.reg x).toNat + (s.reg y).toNat then 0x01#8 else 0x00#8) ∧
    t.pc = s.pc + 2#16 ∧ onlyRegs [x, 0xF#4] s t

/-- `SUB Vx, Vy`: the difference modulo 256, and `VF` is "no borrow", 1 at equality, unless `x` is 15 (42_load_alu R168). -/
def Obligations.SubSetsNoBorrow : Prop :=
  ∀ (x y : Nibble) (s : State), ∃ t, exec (.sub x y) s = .next t ∧
    ((t.reg x).toNat : Int) = ((s.reg x).toNat - (s.reg y).toNat : Int) % 256 ∧
    (x ≠ 0xF#4 → t.reg 0xF#4 = if (s.reg y).toNat ≤ (s.reg x).toNat then 0x01#8 else 0x00#8) ∧
    t.pc = s.pc + 2#16 ∧ onlyRegs [x, 0xF#4] s t

/-- `SUBN Vx, Vy`: the operands swapped, the result still in `V[x]` (42_load_alu R170). -/
def Obligations.SubnSetsNoBorrow : Prop :=
  ∀ (x y : Nibble) (s : State), ∃ t, exec (.subn x y) s = .next t ∧
    ((t.reg x).toNat : Int) = ((s.reg y).toNat - (s.reg x).toNat : Int) % 256 ∧
    (x ≠ 0xF#4 → t.reg 0xF#4 = if (s.reg x).toNat ≤ (s.reg y).toNat then 0x01#8 else 0x00#8) ∧
    t.pc = s.pc + 2#16 ∧ onlyRegs [x, 0xF#4] s t

/-- `SHR Vx` halves `V[x]` in place and `VF` is the bit shifted out, whatever `y` is (42_load_alu R169). -/
def Obligations.ShrHalves : Prop :=
  ∀ (x y : Nibble) (s : State), ∃ t, exec (.shr x y) s = .next t ∧
    (t.reg x).toNat = (s.reg x).toNat / 2 ∧ (x ≠ 0xF#4 → (t.reg 0xF#4).toNat = (s.reg x).toNat % 2) ∧
    t.pc = s.pc + 2#16 ∧ onlyRegs [x, 0xF#4] s t

/-- `SHL Vx` doubles `V[x]` modulo 256 in place and `VF` is the bit shifted out, whatever `y` is (42_load_alu R171). -/
def Obligations.ShlDoubles : Prop :=
  ∀ (x y : Nibble) (s : State), ∃ t, exec (.shl x y) s = .next t ∧
    (t.reg x).toNat = 2 * (s.reg x).toNat % 256 ∧ (x ≠ 0xF#4 → (t.reg 0xF#4).toNat = (s.reg x).toNat / 128) ∧
    t.pc = s.pc + 2#16 ∧ onlyRegs [x, 0xF#4] s t

/-! ## LOAD I, JUMP V0, RANDOM -/

/-- `LOAD I, nnn` writes `I` and nothing else but `pc` (43_index_random R180). -/
def Obligations.LoadAddressRegister : Prop :=
  ∀ (nnn : Addr12) (s : State), ∃ t, exec (.loadI nnn) s = .next t ∧ t.i.toNat = nnn.toNat ∧ t.pc = s.pc + 2#16 ∧
    { t with i := s.i, pc := s.pc } = s

/-- `JUMP V0, nnn` writes the 16-bit sum, which cannot wrap, to `pc` and nothing else (43_index_random R182). -/
def Obligations.IndexedJump : Prop :=
  ∀ (nnn : Addr12) (s : State), ∃ t, exec (.jumpV0 nnn) s = .next t ∧
    t.pc.toNat = (s.reg 0x0#4).toNat + nnn.toNat ∧ { t with pc := s.pc } = s

/-- `RANDOM Vx, kk` writes the byte on `RND`, whichever it is, masked with `kk`: bit k of the result is that byte's where `kk`
has a 1 and 0 elsewhere (43_index_random R184). -/
def Obligations.RandomIsMasked : Prop :=
  ∀ (x : Nibble) (kk : Byte) (s : State), ∃ t, exec (.random x kk) s = .next t ∧
    (∀ k, k < 8 → (t.reg x).getLsbD k = (s.input.random.getLsbD k && kk.getLsbD k)) ∧
    t.reg x &&& ~~~kk = 0x00#8 ∧ t.pc = s.pc + 2#16 ∧ onlyRegs [x] s t

/-! ## DRAW -/

/-- `DRAW Vx, Vy, n` inverts exactly the pixels under set sprite bits, coordinates reduced modulo 64 and 32, and `VF` is 1
exactly when one of them was set; memory, `I` and every other register are unchanged (44_draw R198 in pixel terms, R199). -/
def Obligations.DrawInvertsPixels : Prop :=
  ∀ (x y n : Nibble) (s : State), s.canAccess n.toNat →
    let sprite := s.readBytes s.i.toNat n.toNat
    let covers := spriteCovers sprite (s.reg x).toNat (s.reg y).toNat
    ∃ t, exec (.draw x y n) s = .next t ∧
      (∀ px py, px < 64 → py < 32 → pixel t.disp px py = (pixel s.disp px py != covers px py)) ∧
      (t.reg 0xF#4 = 0x01#8 ∨ t.reg 0xF#4 = 0x00#8) ∧
      (t.reg 0xF#4 = 0x01#8 ↔ ∃ px py, px < 64 ∧ py < 32 ∧ covers px py = true ∧ pixel s.disp px py = true) ∧
      t.pc = s.pc + 2#16 ∧ sameRegsExcept [0xF#4] s t ∧ { t with v := s.v, disp := s.disp, pc := s.pc } = s

/-- Writing a sprite with a set bit twice at one place: the first write on a clear buffer does not collide, the second does
and leaves the buffer clear (44_draw R200; a sprite has at most 15 bytes, R192). -/
def Obligations.DrawingTwiceRestores : Prop :=
  ∀ (sprite : List Byte) (x y : Byte), sprite.length ≤ 15 → (∃ b ∈ sprite, b ≠ 0x00#8) →
    let once := dispWrite blankDisplay sprite x.toNat y.toNat
    once.2 = false ∧ (dispWrite once.1 sprite x.toNat y.toNat).2 = true ∧
    (dispWrite once.1 sprite x.toNat y.toNat).1 = blankDisplay

/-! ## Class F -/

/-- `LOAD Vx, DT` reads the delay timer (46_fgroup R220). -/
def Obligations.ReadDelayTimer : Prop :=
  ∀ (x : Nibble) (s : State), ∃ t, exec (.loadFromDT x) s = .next t ∧ t.reg x = s.dt ∧ t.pc = s.pc + 2#16 ∧ onlyRegs [x] s t

/-- `LOAD DT, Vx` and `LOAD ST, Vx` replace the timers' counts (46_fgroup R224, R226). -/
def Obligations.SetTimers : Prop :=
  ∀ (x : Nibble) (s : State),
    (∃ t, exec (.loadDT x) s = .next t ∧ t.dt = s.reg x ∧ t.pc = s.pc + 2#16 ∧ { t with dt := s.dt, pc := s.pc } = s) ∧
    ∃ t, exec (.loadST x) s = .next t ∧ t.st = s.reg x ∧ t.pc = s.pc + 2#16 ∧ { t with st := s.st, pc := s.pc } = s

/-- `LOAD Vx, K`: with a key event its code goes to `V[x]`, high nibble 0; with none the core holds and changes nothing,
whatever keys are down, and only the ticks of the step show (46_fgroup R222). The hold as a next state is the model's choice
(log entry 4). -/
def Obligations.KeyWait : Prop :=
  (∀ (x k : Nibble) (s : State), s.input.keyEvent = some k →
    ∃ t, exec (.loadKey x) s = .next t ∧ (t.reg x).toNat = k.toNat ∧ t.pc = s.pc + 2#16 ∧ onlyRegs [x] s t) ∧
  (∀ (x : Nibble) (s : State), s.input.keyEvent = none → exec (.loadKey x) s = .next s) ∧
  ∀ (x : Nibble) (s : State), s.status = .running → s.canFetch → decodeWord s.fetchWord = some (.loadKey x) →
    s.nextInput.keyEvent = none → step s = .next s.beginStep

/-- `ADD I, Vx` adds modulo 65536 and writes no flag (46_fgroup R228). -/
def Obligations.AddToAddressRegister : Prop :=
  ∀ (x : Nibble) (s : State), ∃ t, exec (.addI x) s = .next t ∧
    t.i.toNat = (s.i.toNat + (s.reg x).toNat) % 65536 ∧ t.pc = s.pc + 2#16 ∧ { t with i := s.i, pc := s.pc } = s

/-- `LOAD F, Vx` points `I` at the glyph of the low nibble (46_fgroup R230). -/
def Obligations.GlyphAddress : Prop :=
  ∀ (x : Nibble) (s : State), ∃ t, exec (.loadFont x) s = .next t ∧
    t.i.toNat = (s.reg x).toNat % 16 * 5 ∧ t.pc = s.pc + 2#16 ∧ { t with i := s.i, pc := s.pc } = s

/-- `LOAD B, Vx` stores the hundreds, tens and ones digits at `I`, `I + 1`, `I + 2`, addresses through `ea`, and changes no
other byte; out of range it raises `AddressRange` before any write (46_fgroup R232). -/
def Obligations.BcdStoresDigits : Prop :=
  (∀ (x : Nibble) (s : State), s.canAccess 3 → ∃ t, exec (.loadBcd x) s = .next t ∧
    (t.readByte s.i.toNat).toNat = (s.reg x).toNat / 100 ∧
    (t.readByte (s.i.toNat + 1)).toNat = (s.reg x).toNat / 10 % 10 ∧
    (t.readByte (s.i.toNat + 2)).toNat = (s.reg x).toNat % 10 ∧
    (∀ a, (∀ k, k < 3 → ea a ≠ ea (s.i.toNat + k)) → t.readByte a = s.readByte a) ∧
    t.pc = s.pc + 2#16 ∧ { t with mem := s.mem, pc := s.pc } = s) ∧
  ∀ (x : Nibble) (s : State), s.config.addrPolicy = .fault → 0x0FFF < s.i.toNat + 2 →
    ∃ a, exec (.loadBcd x) s = .next { s with status := .failed (.addressRange a s.pc) }

/-- `LOAD I, Vx` stores all 16 registers at `I`.., whatever `x` is, leaves `I` and changes no other byte; out of range it
raises `AddressRange` before any write (46_fgroup R234). -/
def Obligations.BulkStore : Prop :=
  (∀ (x : Nibble) (s : State), s.canAccess 16 → ∃ t, exec (.storeAll x) s = .next t ∧
    (∀ r : Nibble, t.readByte (s.i.toNat + r.toNat) = s.reg r) ∧
    (∀ a, (∀ k, k < 16 → ea a ≠ ea (s.i.toNat + k)) → t.readByte a = s.readByte a) ∧
    t.pc = s.pc + 2#16 ∧ { t with mem := s.mem, pc := s.pc } = s) ∧
  ∀ (x : Nibble) (s : State), s.config.addrPolicy = .fault → 0x0FFF < s.i.toNat + 15 →
    ∃ a, exec (.storeAll x) s = .next { s with status := .failed (.addressRange a s.pc) }

/-- `LOAD Vx, I` loads all 16 registers from `I`.., whatever `x` is, and leaves `I`; out of range it raises `AddressRange`
before any write (46_fgroup R236). -/
def Obligations.BulkLoad : Prop :=
  (∀ (x : Nibble) (s : State), s.canAccess 16 → ∃ t, exec (.loadAll x) s = .next t ∧
    (∀ r : Nibble, t.reg r = s.readByte (s.i.toNat + r.toNat)) ∧
    t.pc = s.pc + 2#16 ∧ { t with v := s.v, pc := s.pc } = s) ∧
  ∀ (x : Nibble) (s : State), s.config.addrPolicy = .fault → 0x0FFF < s.i.toNat + 15 →
    ∃ a, exec (.loadAll x) s = .next { s with status := .failed (.addressRange a s.pc) }
end

