-- ==== Sys2Proof/Laws/Agents.lean ====
section
/-! SUPPORT. All that a run can do: one equation for each way it can go. -/

namespace Sys2Proof.Machine

/-- A failed machine ends the run, whatever the cancel signal. -/
theorem runUntil_failed (cancels : List Bool) (s : State) (c : Cause) (h : s.status = .failed c) :
    runUntil cancels s = .failed c s := by
  rw [runUntil.eq_def]; simp [h]

/-- A set signal before a step of a running machine ends the run there. -/
theorem runUntil_cancelled (later : List Bool) (s : State) (h : s.status = .running) :
    runUntil (true :: later) s = .cancelled s := by
  rw [runUntil.eq_def]; simp [h]

/-- Without a further sample the run is still going. -/
theorem runUntil_going (s : State) (h : s.status = .running) : runUntil [] s = .going s := by
  rw [runUntil.eq_def]; simp [h]

/-- A clear signal lets the next step be taken, and the run goes on from the state it leaves. -/
theorem runUntil_step (later : List Bool) (s t : State) (h : s.status = .running) (hs : step s = .next t) :
    runUntil (false :: later) s = runUntil later t := by
  rw [runUntil.eq_def]; simp [h, hs]

/-- On any machine, `k + 1` steps that all answer a next state are a first step and then `k` steps. -/
theorem host_run_succ (M : Host.Core) (k : Nat) (s t : M.State) (h : M.run (k + 1) s = .next t) :
    ∃ u, M.step s = .next u ∧ M.run k u = .next t := by
  unfold Host.Core.run at h
  split at h
  · next u hu => exact ⟨u, hu, h⟩
  · cases h
  · cases h

/-- The same on this machine. -/
theorem core_run_succ (k : Nat) (s t : State) (h : Host.Core.run Sys2Proof.core (k + 1) s = .next t) :
    ∃ u, step s = .next u ∧ Host.Core.run Sys2Proof.core k u = .next t := host_run_succ Sys2Proof.core k s t h

end Sys2Proof.Machine
end

