-- ==== Sys2Proof/Laws/Assembler.lean ====
section
/-! SUPPORT. The encoder on text: digits and mnemonics read back as what they were printed from. -/

namespace Sys2Proof.Machine

/-- A printed digit has the value it was printed from. -/
@[simp] theorem hexValue_hexDigit (d : Nibble) : hexValue (hexDigit d) = some d.toNat := by revert d; decide

/-- A printed digit is a hex digit. -/
@[simp] theorem isHex_hexDigit (d : Nibble) : isHex (hexDigit d) = true := by revert d; decide

/-- Printed digits are upper case. -/
@[simp] theorem toUpper_hexDigit (d : Nibble) : (hexDigit d).toUpper = hexDigit d := by revert d; decide

/-- A canonical name is registered as itself. -/
@[simp] theorem canonicalMnemonic_mnemonicText (m : Mnemonic) : canonicalMnemonic (mnemonicText m) = some m := by
  cases m <;> decide

end Sys2Proof.Machine
end

