-- ==== Sys2Proof/Laws/Decode.lean ====
section
/-! SUPPORT. The fields of the packed words, and the bytes of a word. -/

namespace Sys2Proof

@[simp] theorem opField_packA (op : Nibble) (a : Addr12) : opField (packA op a) = op := by
  unfold opField packA; apply BitVec.eq_of_getLsbD_eq; intro i hi; simp only [BitVec.getLsbD_extractLsb', BitVec.getLsbD_append]; interval_cases i <;> simp
@[simp] theorem nnnField_packA (op : Nibble) (a : Addr12) : nnnField (packA op a) = a := by
  unfold nnnField packA; apply BitVec.eq_of_getLsbD_eq; intro i hi; simp only [BitVec.getLsbD_extractLsb', BitVec.getLsbD_append]; interval_cases i <;> simp
@[simp] theorem opField_packXK (op x : Nibble) (kk : Byte) : opField (packXK op x kk) = op := by
  unfold opField packXK; apply BitVec.eq_of_getLsbD_eq; intro i hi; simp only [BitVec.getLsbD_extractLsb', BitVec.getLsbD_append]; interval_cases i <;> simp
@[simp] theorem xField_packXK (op x : Nibble) (kk : Byte) : xField (packXK op x kk) = x := by
  unfold xField packXK; apply BitVec.eq_of_getLsbD_eq; intro i hi; simp only [BitVec.getLsbD_extractLsb', BitVec.getLsbD_append]; interval_cases i <;> simp
@[simp] theorem kkField_packXK (op x : Nibble) (kk : Byte) : kkField (packXK op x kk) = kk := by
  unfold kkField packXK; apply BitVec.eq_of_getLsbD_eq; intro i hi; simp only [BitVec.getLsbD_extractLsb', BitVec.getLsbD_append]; interval_cases i <;> simp
@[simp] theorem opField_packXYN (op x y n : Nibble) : opField (packXYN op x y n) = op := by
  unfold opField packXYN; apply BitVec.eq_of_getLsbD_eq; intro i hi; simp only [BitVec.getLsbD_extractLsb', BitVec.getLsbD_append]; interval_cases i <;> simp
@[simp] theorem xField_packXYN (op x y n : Nibble) : xField (packXYN op x y n) = x := by
  unfold xField packXYN; apply BitVec.eq_of_getLsbD_eq; intro i hi; simp only [BitVec.getLsbD_extractLsb', BitVec.getLsbD_append]; interval_cases i <;> simp
@[simp] theorem yField_packXYN (op x y n : Nibble) : yField (packXYN op x y n) = y := by
  unfold yField packXYN; apply BitVec.eq_of_getLsbD_eq; intro i hi; simp only [BitVec.getLsbD_extractLsb', BitVec.getLsbD_append]; interval_cases i <;> simp
@[simp] theorem nField_packXYN (op x y n : Nibble) : nField (packXYN op x y n) = n := by
  unfold nField packXYN; apply BitVec.eq_of_getLsbD_eq; intro i hi; simp only [BitVec.getLsbD_extractLsb', BitVec.getLsbD_append]; interval_cases i <;> simp

end Sys2Proof
end

