-- ==== Sys2Proof/Laws/Display.lean ====
section
/-! SUPPORT. The display engine: what one XOR changes, what a blank display holds, the shape of a write, and one row of it
byte by byte and pixel by pixel. -/

namespace Sys2Proof.Machine

/-- Two display bytes are one exactly when their rows and byte-columns agree after reduction. -/
theorem dispIndex_eq_iff (row col row' col' : Nat) :
    dispIndex row col = dispIndex row' col' ↔ row % 32 = row' % 32 ∧ col % 8 = col' % 8 := by
  unfold dispIndex; omega

/-- One XOR changes its own byte and no other. -/
theorem dispByte_xorByte (d : Display) (row col row' col' : Nat) (b : Byte) :
    dispByte (xorByte d row col b) row' col' =
      if row % 32 = row' % 32 ∧ col % 8 = col' % 8 then dispByte d row' col' ^^^ b else dispByte d row' col' := by
  have e := dispIndex_eq_iff row col row' col'
  show (d.set (dispIndex row col) (dispByte d row col ^^^ b) (dispIndex_lt row col))[dispIndex row' col']'(dispIndex_lt row' col') = _
  rw [Vector.getElem_set]
  by_cases h : dispIndex row col = dispIndex row' col'
  · rw [if_pos h, if_pos (e.mp h)]
    unfold dispByte; simp only [h]
  · rw [if_neg h, if_neg (fun x => h (e.mpr x))]
    rfl

@[simp] theorem dispByte_blank (row col : Nat) : dispByte blankDisplay row col = 0x00#8 := by
  unfold dispByte blankDisplay; simp

/-- Two displays with equal bytes at every row and byte-column are equal. -/
theorem display_ext (d e : Display) (h : ∀ row col, row < 32 → col < 8 → dispByte d row col = dispByte e row col) : d = e := by
  ext k hk
  have := h (k / 8) (k % 8) (by omega) (by omega)
  have hi : dispIndex (k / 8) (k % 8) = k := by unfold dispIndex; omega
  unfold dispByte at this
  simp only [hi] at this
  rw [this]

@[simp] theorem dispWrite_nil (d : Display) (x y : Nat) : dispWrite d [] x y = (d, false) := rfl

/-- A write is its first row, then the rest one row lower. -/
theorem dispWrite_cons (d : Display) (b : Byte) (bs : List Byte) (x y : Nat) :
    dispWrite d (b :: bs) x y =
      ((dispWrite (blitRow d b x y).1 bs x (y + 1)).1,
        (blitRow d b x y).2 || (dispWrite (blitRow d b x y).1 bs x (y + 1)).2) := rfl

/-- One row of a write, byte by byte: the two parts go to neighbouring byte-columns of one row (44_draw R196). -/
theorem dispByte_blitRow (d : Display) (b : Byte) (x row py c : Nat) :
    dispByte (blitRow d b x row).1 py c = dispByte d py c ^^^
      (if row % 32 = py % 32 ∧ (x / 8) % 8 = c % 8 then spriteLo x b else 0#8) ^^^
      (if row % 32 = py % 32 ∧ (x / 8 + 1) % 8 = c % 8 then spriteHi x b else 0#8) := by
  unfold blitRow; simp only [dispByte_xorByte]
  split <;> split <;> simp

/-- The two parts of a sprite byte together put its bit `7 - j` over the pixel `j` places right of `x`, counted modulo 64. -/
theorem rowPattern_bit (x : Nat) (b : Byte) (px : Nat) (hpx : px < 64) :
    (((if (x / 8) % 8 = px / 8 % 8 then spriteLo x b else 0#8) ^^^
      (if (x / 8 + 1) % 8 = px / 8 % 8 then spriteHi x b else 0#8)).getLsbD (7 - px % 8))
      = (decide ((px + 64 - x % 64) % 64 < 8) && b.getLsbD (7 - (px + 64 - x % 64) % 64)) := by
  by_cases h1 : (x / 8) % 8 = px / 8 % 8
  · have h2 : ¬ (x / 8 + 1) % 8 = px / 8 % 8 := by omega
    simp only [h1, h2, if_true, if_false, BitVec.xor_zero, spriteLo, BitVec.getLsbD_ushiftRight]
    by_cases h3 : x % 8 ≤ px % 8
    · have e1 : (px + 64 - x % 64) % 64 = px % 8 - x % 8 := by omega
      have e2 : 7 - (px % 8 - x % 8) = x % 8 + (7 - px % 8) := by omega
      rw [e1, e2]; simp; intro; omega
    · have e1 : ¬ (px + 64 - x % 64) % 64 < 8 := by omega
      have : 8 ≤ x % 8 + (7 - px % 8) := by omega
      simp [e1, BitVec.getLsbD_of_ge _ _ this]
  · by_cases h2 : (x / 8 + 1) % 8 = px / 8 % 8
    · simp only [h1, h2, if_true, if_false, BitVec.zero_xor, spriteHi, BitVec.getLsbD_shiftLeft]
      by_cases h3 : px % 8 < x % 8
      · have e1 : (px + 64 - x % 64) % 64 = 8 + px % 8 - x % 8 := by omega
        have e2 : 7 - (8 + px % 8 - x % 8) = 7 - px % 8 - (8 - x % 8) := by omega
        have e3 : ¬ 7 - px % 8 < 8 - x % 8 := by omega
        have e4 : 7 - px % 8 < 8 := by omega
        have e5 : 8 + px % 8 - x % 8 < 8 := by omega
        rw [e1, e2]; simp [e3, e4, e5]
      · have e1 : ¬ (px + 64 - x % 64) % 64 < 8 := by omega
        have e3 : 7 - px % 8 < 8 - x % 8 := by omega
        simp [e1, e3]
    · have e1 : ¬ (px + 64 - x % 64) % 64 < 8 := by omega
      simp [h1, h2, e1]

/-- One row of a write, pixel by pixel (44_draw R198). -/
theorem pixel_blitRow (d : Display) (b : Byte) (x row px py : Nat) (hpx : px < 64) :
    pixel (blitRow d b x row).1 px py =
      (pixel d px py != (decide (row % 32 = py % 32) &&
        (decide ((px + 64 - x % 64) % 64 < 8) && b.getLsbD (7 - (px + 64 - x % 64) % 64)))) := by
  unfold pixel
  rw [dispByte_blitRow, ← rowPattern_bit x b px hpx, BitVec.xor_assoc, BitVec.getLsbD_xor]
  by_cases h : row % 32 = py % 32
  · simp [h]
  · simp [h]

/-- One row collides exactly when a pixel under one of its set bits was set (44_draw R197). -/
theorem blitRow_collides (d : Display) (b : Byte) (x row : Nat) :
    (blitRow d b x row).2 = true ↔ ∃ px py, px < 64 ∧ py < 32 ∧ row % 32 = py % 32 ∧
      ((px + 64 - x % 64) % 64 < 8 ∧ b.getLsbD (7 - (px + 64 - x % 64) % 64) = true) ∧ pixel d px py = true := by
  have key : ∀ px, px < 64 → (((px + 64 - x % 64) % 64 < 8 ∧ b.getLsbD (7 - (px + 64 - x % 64) % 64) = true) ↔ 
     (((if (x / 8) % 8 = px / 8 % 8 then spriteLo x b else 0#8) ^^^
      (if (x / 8 + 1) % 8 = px / 8 % 8 then spriteHi x b else 0#8)).getLsbD (7 - px % 8)) = true) := by
    intro px h; rw [rowPattern_bit x b px h]; simp
  have nz : ∀ v : Byte, v ≠ 0#8 ↔ ∃ k, k < 8 ∧ v.getLsbD k = true := by decide
  have dr : ∀ c, dispByte d row c = dispByte d (row % 32) (c % 8) := by
    intro c; unfold dispByte; congr 1; unfold dispIndex; omega
  unfold blitRow; simp only [Bool.or_eq_true, bne_iff_ne, nz]
  constructor
  · rintro (⟨k, hk, h⟩ | ⟨k, hk, h⟩)
    · refine ⟨8 * (x / 8 % 8) + (7 - k), row % 32, by omega, by omega, by omega, ?_, ?_⟩
      · rw [key _ (by omega)]
        have e1 : x / 8 % 8 = (8 * (x / 8 % 8) + (7 - k)) / 8 % 8 := by omega
        have e2 : ¬ (x / 8 + 1) % 8 = (8 * (x / 8 % 8) + (7 - k)) / 8 % 8 := by omega
        have e3 : 7 - (8 * (x / 8 % 8) + (7 - k)) % 8 = k := by omega
        rw [if_pos e1, if_neg e2, e3]; simp at h ⊢; exact h.2
      · unfold pixel
        have e3 : 7 - (8 * (x / 8 % 8) + (7 - k)) % 8 = k := by omega
        have e4 : (8 * (x / 8 % 8) + (7 - k)) / 8 = (x / 8) % 8 := by omega
        rw [e3, e4, ← dr]; simp at h; exact h.1
    · refine ⟨8 * ((x / 8 + 1) % 8) + (7 - k), row % 32, by omega, by omega, by omega, ?_, ?_⟩
      · rw [key _ (by omega)]
        have e1 : ¬ x / 8 % 8 = (8 * ((x / 8 + 1) % 8) + (7 - k)) / 8 % 8 := by omega
        have e2 : (x / 8 + 1) % 8 = (8 * ((x / 8 + 1) % 8) + (7 - k)) / 8 % 8 := by omega
        have e3 : 7 - (8 * ((x / 8 + 1) % 8) + (7 - k)) % 8 = k := by omega
        rw [if_neg e1, if_pos e2, e3]; simp at h ⊢; exact h.2
      · unfold pixel
        have e3 : 7 - (8 * ((x / 8 + 1) % 8) + (7 - k)) % 8 = k := by omega
        have e4 : (8 * ((x / 8 + 1) % 8) + (7 - k)) / 8 = (x / 8 + 1) % 8 := by omega
        rw [e3, e4, ← dr]; simp at h; exact h.1
  · rintro ⟨px, py, hpx, hpy, hr, hc, hp⟩
    rw [key px hpx] at hc
    unfold pixel at hp
    have hrow : py = row % 32 := by omega
    by_cases e1 : x / 8 % 8 = px / 8 % 8
    · left
      have e2 : ¬ (x / 8 + 1) % 8 = px / 8 % 8 := by omega
      rw [if_pos e1, if_neg e2] at hc
      refine ⟨7 - px % 8, by omega, ?_⟩
      rw [dr, e1, ← hrow]
      have : px / 8 % 8 = px / 8 := by omega
      rw [this]; simp at hc ⊢; exact ⟨hp, hc⟩
    · by_cases e2 : (x / 8 + 1) % 8 = px / 8 % 8
      · right
        rw [if_neg e1, if_pos e2] at hc
        refine ⟨7 - px % 8, by omega, ?_⟩
        rw [dr, e2, ← hrow]
        have : px / 8 % 8 = px / 8 := by omega
        rw [this]; simp at hc ⊢; exact ⟨hp, hc⟩
      · rw [if_neg e1, if_neg e2] at hc; simp at hc

end Sys2Proof.Machine
end

