-- ==== Sys2Proof/Laws/Memory.lean ====
section
/-! SUPPORT. The laws of main memory: a read after a write, and that every operation keeps the canonical form. -/

namespace Sys2Proof.Machine

theorem Memory.read_erase (c : Config) (m : Memory) (a a' : Nat) :
    (m.erase a).read c a' = if a' = a then unlistedByte c a else m.read c a' := by
  induction m with
  | nil => simp [Memory.erase, Memory.read]; intro h; rw [h]
  | cons p m ih =>
    obtain ⟨k, x⟩ := p
    by_cases hk : k = a
    · have h : Memory.erase ((k, x) :: m) a = Memory.erase m a := by simp [Memory.erase, hk]
      rw [h, ih]
      by_cases ha : a' = a
      · simp [ha]
      · simp [Memory.read, ha, hk, Ne.symm ha]
    · have h : Memory.erase ((k, x) :: m) a = (k, x) :: Memory.erase m a := by simp [Memory.erase, hk]
      rw [h]
      simp only [Memory.read, ih]
      by_cases ha : a' = a
      · simp [ha, hk]
      · simp [ha]

theorem Memory.read_insert (c : Config) (m : Memory) (a a' : Nat) (b : Byte) (h : ∀ p ∈ m, p.1 ≠ a) :
    (m.insert a b).read c a' = if a' = a then b else m.read c a' := by
  induction m with
  | nil =>
    by_cases ha : a' = a
    · simp [Memory.insert, Memory.read, ha]
    · simp [Memory.insert, Memory.read, ha, Ne.symm ha]
  | cons p m ih =>
    obtain ⟨k, x⟩ := p
    have hk : k ≠ a := h (k, x) (by simp)
    have ih' := ih (fun p hp => h p (by simp [hp]))
    by_cases hlt : a < k
    · by_cases ha : a' = a
      · simp [Memory.insert, hlt, Memory.read, ha]
      · simp [Memory.insert, hlt, Memory.read, ha, Ne.symm ha]
    · simp only [Memory.insert, hlt, if_false, Memory.read, ih']
      by_cases ha : a' = a
      · simp [ha, hk]
      · simp [ha]

theorem Memory.erase_ne (m : Memory) (a : Nat) : ∀ p ∈ m.erase a, p.1 ≠ a := by
  intro p hp
  simpa using (List.mem_filter.mp hp).2

/-- A read after a write: the byte written at its address, the byte that was there at every other. It holds of every list,
in canonical form or not. -/
@[simp] theorem Memory.read_write (c : Config) (m : Memory) (a a' : Nat) (b : Byte) :
    (m.write c a b).read c a' = if a' = a then b else m.read c a' := by
  unfold Memory.write
  split
  · next h => rw [Memory.read_erase, h]
  · rw [Memory.read_insert _ _ _ _ _ (m.erase_ne a), Memory.read_erase]
    by_cases ha : a' = a <;> simp [ha]

@[simp] theorem Memory.read_nil (c : Config) (a : Nat) : Memory.read c [] a = unlistedByte c a := rfl

theorem Memory.mem_insert (m : Memory) (a : Nat) (b : Byte) (p : Host.Cell) :
    p ∈ m.insert a b ↔ p = (a, b) ∨ p ∈ m := by
  induction m with
  | nil => simp [Memory.insert]
  | cons q m ih =>
    obtain ⟨k, x⟩ := q
    by_cases h : a < k
    · simp [Memory.insert, h]
    · simp only [Memory.insert, h, if_false, List.mem_cons, ih]
      tauto

theorem Memory.wf_erase (c : Config) (m : Memory) (a : Nat) (h : m.wf c) : (m.erase a).wf c :=
  ⟨h.1.filter _, fun p hp => h.2 p (List.mem_filter.mp hp).1⟩

theorem Memory.wf_insert (c : Config) (m : Memory) (a : Nat) (b : Byte) (h : m.wf c) (hne : ∀ p ∈ m, p.1 ≠ a)
    (ha : a < 4096) (hb : b ≠ unlistedByte c a) : (m.insert a b).wf c := by
  refine ⟨?_, ?_⟩
  · induction m with
    | nil => simp [Memory.insert]
    | cons q m ih =>
      obtain ⟨k, x⟩ := q
      have hs := List.pairwise_cons.mp h.1
      have hk : k ≠ a := hne (k, x) (by simp)
      by_cases hlt : a < k
      · simp only [Memory.insert, hlt, if_true]
        refine List.pairwise_cons.mpr ⟨fun p hp => ?_, h.1⟩
        rcases List.mem_cons.mp hp with rfl | hp
        · exact hlt
        · exact lt_trans hlt (hs.1 p hp)
      · simp only [Memory.insert, hlt, if_false]
        refine List.pairwise_cons.mpr ⟨fun p hp => ?_, ih ⟨hs.2, fun p hp => h.2 p (by simp [hp])⟩
          (fun p hp => hne p (by simp [hp]))⟩
        rcases (Memory.mem_insert m a b p).mp hp with rfl | hp
        · exact lt_of_le_of_ne (not_lt.mp hlt) hk
        · exact hs.1 p hp
  · intro p hp
    rcases (Memory.mem_insert m a b p).mp hp with rfl | hp
    · exact ⟨ha, hb⟩
    · exact h.2 p hp

/-- A write keeps the canonical form. -/
theorem Memory.wf_write (c : Config) (m : Memory) (a : Nat) (b : Byte) (h : m.wf c) (ha : a < 4096) :
    (m.write c a b).wf c := by
  unfold Memory.write
  split
  · exact m.wf_erase c a h
  · next hb => exact Memory.wf_insert c _ a b (m.wf_erase c a h) (m.erase_ne a) ha hb

/-- The empty list of cells is in canonical form. -/
theorem Memory.wf_nil (c : Config) : Memory.wf c [] := ⟨List.Pairwise.nil, by simp⟩

end Sys2Proof.Machine
end

