-- ==== Sys2Proof/Laws/State.lean ====
section
/-! SUPPORT. Every field of the state after every shared update, one lemma a field, each true by unfolding the update. -/

namespace Sys2Proof.Machine

/-! ## `State.setReg` -/

@[simp] theorem State.setReg_v (s : State) (x : Nibble) (b : Byte) : (s.setReg x b).v = s.v.set x.toNat b x.isLt := rfl
@[simp] theorem State.setReg_i (s : State) (x : Nibble) (b : Byte) : (s.setReg x b).i = s.i := rfl
@[simp] theorem State.setReg_pc (s : State) (x : Nibble) (b : Byte) : (s.setReg x b).pc = s.pc := rfl
@[simp] theorem State.setReg_sp (s : State) (x : Nibble) (b : Byte) : (s.setReg x b).sp = s.sp := rfl
@[simp] theorem State.setReg_stack (s : State) (x : Nibble) (b : Byte) : (s.setReg x b).stack = s.stack := rfl
@[simp] theorem State.setReg_dt (s : State) (x : Nibble) (b : Byte) : (s.setReg x b).dt = s.dt := rfl
@[simp] theorem State.setReg_st (s : State) (x : Nibble) (b : Byte) : (s.setReg x b).st = s.st := rfl
@[simp] theorem State.setReg_mem (s : State) (x : Nibble) (b : Byte) : (s.setReg x b).mem = s.mem := rfl
@[simp] theorem State.setReg_disp (s : State) (x : Nibble) (b : Byte) : (s.setReg x b).disp = s.disp := rfl
@[simp] theorem State.setReg_status (s : State) (x : Nibble) (b : Byte) : (s.setReg x b).status = s.status := rfl
@[simp] theorem State.setReg_config (s : State) (x : Nibble) (b : Byte) : (s.setReg x b).config = s.config := rfl
@[simp] theorem State.setReg_input (s : State) (x : Nibble) (b : Byte) : (s.setReg x b).input = s.input := rfl
@[simp] theorem State.setReg_pending (s : State) (x : Nibble) (b : Byte) : (s.setReg x b).pending = s.pending := rfl
@[simp] theorem State.setReg_steps (s : State) (x : Nibble) (b : Byte) : (s.setReg x b).steps = s.steps := rfl

/-! ## `State.setFlag` -/

@[simp] theorem State.setFlag_v (s : State) (f : Bool) : (s.setFlag f).v = s.v.set 15 (flagByte f) := rfl
@[simp] theorem State.setFlag_i (s : State) (f : Bool) : (s.setFlag f).i = s.i := rfl
@[simp] theorem State.setFlag_pc (s : State) (f : Bool) : (s.setFlag f).pc = s.pc := rfl
@[simp] theorem State.setFlag_sp (s : State) (f : Bool) : (s.setFlag f).sp = s.sp := rfl
@[simp] theorem State.setFlag_stack (s : State) (f : Bool) : (s.setFlag f).stack = s.stack := rfl
@[simp] theorem State.setFlag_dt (s : State) (f : Bool) : (s.setFlag f).dt = s.dt := rfl
@[simp] theorem State.setFlag_st (s : State) (f : Bool) : (s.setFlag f).st = s.st := rfl
@[simp] theorem State.setFlag_mem (s : State) (f : Bool) : (s.setFlag f).mem = s.mem := rfl
@[simp] theorem State.setFlag_disp (s : State) (f : Bool) : (s.setFlag f).disp = s.disp := rfl
@[simp] theorem State.setFlag_status (s : State) (f : Bool) : (s.setFlag f).status = s.status := rfl
@[simp] theorem State.setFlag_config (s : State) (f : Bool) : (s.setFlag f).config = s.config := rfl
@[simp] theorem State.setFlag_input (s : State) (f : Bool) : (s.setFlag f).input = s.input := rfl
@[simp] theorem State.setFlag_pending (s : State) (f : Bool) : (s.setFlag f).pending = s.pending := rfl
@[simp] theorem State.setFlag_steps (s : State) (f : Bool) : (s.setFlag f).steps = s.steps := rfl

/-! ## `State.advance` -/

@[simp] theorem State.advance_v (s : State) : (s.advance).v = s.v := rfl
@[simp] theorem State.advance_i (s : State) : (s.advance).i = s.i := rfl
@[simp] theorem State.advance_pc (s : State) : (s.advance).pc = s.pc + 2#16 := rfl
@[simp] theorem State.advance_sp (s : State) : (s.advance).sp = s.sp := rfl
@[simp] theorem State.advance_stack (s : State) : (s.advance).stack = s.stack := rfl
@[simp] theorem State.advance_dt (s : State) : (s.advance).dt = s.dt := rfl
@[simp] theorem State.advance_st (s : State) : (s.advance).st = s.st := rfl
@[simp] theorem State.advance_mem (s : State) : (s.advance).mem = s.mem := rfl
@[simp] theorem State.advance_disp (s : State) : (s.advance).disp = s.disp := rfl
@[simp] theorem State.advance_status (s : State) : (s.advance).status = s.status := rfl
@[simp] theorem State.advance_config (s : State) : (s.advance).config = s.config := rfl
@[simp] theorem State.advance_input (s : State) : (s.advance).input = s.input := rfl
@[simp] theorem State.advance_pending (s : State) : (s.advance).pending = s.pending := rfl
@[simp] theorem State.advance_steps (s : State) : (s.advance).steps = s.steps := rfl

/-! ## `State.skipIf` -/

@[simp] theorem State.skipIf_v (s : State) (c : Bool) : (s.skipIf c).v = s.v := rfl
@[simp] theorem State.skipIf_i (s : State) (c : Bool) : (s.skipIf c).i = s.i := rfl
@[simp] theorem State.skipIf_pc (s : State) (c : Bool) : (s.skipIf c).pc = if c then s.pc + 4#16 else s.pc + 2#16 := rfl
@[simp] theorem State.skipIf_sp (s : State) (c : Bool) : (s.skipIf c).sp = s.sp := rfl
@[simp] theorem State.skipIf_stack (s : State) (c : Bool) : (s.skipIf c).stack = s.stack := rfl
@[simp] theorem State.skipIf_dt (s : State) (c : Bool) : (s.skipIf c).dt = s.dt := rfl
@[simp] theorem State.skipIf_st (s : State) (c : Bool) : (s.skipIf c).st = s.st := rfl
@[simp] theorem State.skipIf_mem (s : State) (c : Bool) : (s.skipIf c).mem = s.mem := rfl
@[simp] theorem State.skipIf_disp (s : State) (c : Bool) : (s.skipIf c).disp = s.disp := rfl
@[simp] theorem State.skipIf_status (s : State) (c : Bool) : (s.skipIf c).status = s.status := rfl
@[simp] theorem State.skipIf_config (s : State) (c : Bool) : (s.skipIf c).config = s.config := rfl
@[simp] theorem State.skipIf_input (s : State) (c : Bool) : (s.skipIf c).input = s.input := rfl
@[simp] theorem State.skipIf_pending (s : State) (c : Bool) : (s.skipIf c).pending = s.pending := rfl
@[simp] theorem State.skipIf_steps (s : State) (c : Bool) : (s.skipIf c).steps = s.steps := rfl

/-! ## `State.jumpTo` -/

@[simp] theorem State.jumpTo_v (s : State) (w : Word) : (s.jumpTo w).v = s.v := rfl
@[simp] theorem State.jumpTo_i (s : State) (w : Word) : (s.jumpTo w).i = s.i := rfl
@[simp] theorem State.jumpTo_pc (s : State) (w : Word) : (s.jumpTo w).pc = w := rfl
@[simp] theorem State.jumpTo_sp (s : State) (w : Word) : (s.jumpTo w).sp = s.sp := rfl
@[simp] theorem State.jumpTo_stack (s : State) (w : Word) : (s.jumpTo w).stack = s.stack := rfl
@[simp] theorem State.jumpTo_dt (s : State) (w : Word) : (s.jumpTo w).dt = s.dt := rfl
@[simp] theorem State.jumpTo_st (s : State) (w : Word) : (s.jumpTo w).st = s.st := rfl
@[simp] theorem State.jumpTo_mem (s : State) (w : Word) : (s.jumpTo w).mem = s.mem := rfl
@[simp] theorem State.jumpTo_disp (s : State) (w : Word) : (s.jumpTo w).disp = s.disp := rfl
@[simp] theorem State.jumpTo_status (s : State) (w : Word) : (s.jumpTo w).status = s.status := rfl
@[simp] theorem State.jumpTo_config (s : State) (w : Word) : (s.jumpTo w).config = s.config := rfl
@[simp] theorem State.jumpTo_input (s : State) (w : Word) : (s.jumpTo w).input = s.input := rfl
@[simp] theorem State.jumpTo_pending (s : State) (w : Word) : (s.jumpTo w).pending = s.pending := rfl
@[simp] theorem State.jumpTo_steps (s : State) (w : Word) : (s.jumpTo w).steps = s.steps := rfl

/-! ## `State.raise` -/

@[simp] theorem State.raise_v (s : State) (c : Cause) : (s.raise c).v = s.v := rfl
@[simp] theorem State.raise_i (s : State) (c : Cause) : (s.raise c).i = s.i := rfl
@[simp] theorem State.raise_pc (s : State) (c : Cause) : (s.raise c).pc = s.pc := rfl
@[simp] theorem State.raise_sp (s : State) (c : Cause) : (s.raise c).sp = s.sp := rfl
@[simp] theorem State.raise_stack (s : State) (c : Cause) : (s.raise c).stack = s.stack := rfl
@[simp] theorem State.raise_dt (s : State) (c : Cause) : (s.raise c).dt = s.dt := rfl
@[simp] theorem State.raise_st (s : State) (c : Cause) : (s.raise c).st = s.st := rfl
@[simp] theorem State.raise_mem (s : State) (c : Cause) : (s.raise c).mem = s.mem := rfl
@[simp] theorem State.raise_disp (s : State) (c : Cause) : (s.raise c).disp = s.disp := rfl
@[simp] theorem State.raise_status (s : State) (c : Cause) : (s.raise c).status = .failed c := rfl
@[simp] theorem State.raise_config (s : State) (c : Cause) : (s.raise c).config = s.config := rfl
@[simp] theorem State.raise_input (s : State) (c : Cause) : (s.raise c).input = s.input := rfl
@[simp] theorem State.raise_pending (s : State) (c : Cause) : (s.raise c).pending = s.pending := rfl
@[simp] theorem State.raise_steps (s : State) (c : Cause) : (s.raise c).steps = s.steps := rfl

/-! ## `State.ticks` -/

@[simp] theorem State.ticks_v (s : State) (n : Nat) : (s.ticks n).v = s.v := rfl
@[simp] theorem State.ticks_i (s : State) (n : Nat) : (s.ticks n).i = s.i := rfl
@[simp] theorem State.ticks_pc (s : State) (n : Nat) : (s.ticks n).pc = s.pc := rfl
@[simp] theorem State.ticks_sp (s : State) (n : Nat) : (s.ticks n).sp = s.sp := rfl
@[simp] theorem State.ticks_stack (s : State) (n : Nat) : (s.ticks n).stack = s.stack := rfl
@[simp] theorem State.ticks_dt (s : State) (n : Nat) : (s.ticks n).dt = timerAfter n s.dt := rfl
@[simp] theorem State.ticks_st (s : State) (n : Nat) : (s.ticks n).st = timerAfter n s.st := rfl
@[simp] theorem State.ticks_mem (s : State) (n : Nat) : (s.ticks n).mem = s.mem := rfl
@[simp] theorem State.ticks_disp (s : State) (n : Nat) : (s.ticks n).disp = s.disp := rfl
@[simp] theorem State.ticks_status (s : State) (n : Nat) : (s.ticks n).status = s.status := rfl
@[simp] theorem State.ticks_config (s : State) (n : Nat) : (s.ticks n).config = s.config := rfl
@[simp] theorem State.ticks_input (s : State) (n : Nat) : (s.ticks n).input = s.input := rfl
@[simp] theorem State.ticks_pending (s : State) (n : Nat) : (s.ticks n).pending = s.pending := rfl
@[simp] theorem State.ticks_steps (s : State) (n : Nat) : (s.ticks n).steps = s.steps := rfl

/-! ## `State.tick` -/

@[simp] theorem State.tick_v (s : State) : (s.tick).v = s.v := rfl
@[simp] theorem State.tick_i (s : State) : (s.tick).i = s.i := rfl
@[simp] theorem State.tick_pc (s : State) : (s.tick).pc = s.pc := rfl
@[simp] theorem State.tick_sp (s : State) : (s.tick).sp = s.sp := rfl
@[simp] theorem State.tick_stack (s : State) : (s.tick).stack = s.stack := rfl
@[simp] theorem State.tick_dt (s : State) : (s.tick).dt = timerAfter 1 s.dt := rfl
@[simp] theorem State.tick_st (s : State) : (s.tick).st = timerAfter 1 s.st := rfl
@[simp] theorem State.tick_mem (s : State) : (s.tick).mem = s.mem := rfl
@[simp] theorem State.tick_disp (s : State) : (s.tick).disp = s.disp := rfl
@[simp] theorem State.tick_status (s : State) : (s.tick).status = s.status := rfl
@[simp] theorem State.tick_config (s : State) : (s.tick).config = s.config := rfl
@[simp] theorem State.tick_input (s : State) : (s.tick).input = s.input := rfl
@[simp] theorem State.tick_pending (s : State) : (s.tick).pending = s.pending := rfl
@[simp] theorem State.tick_steps (s : State) : (s.tick).steps = s.steps := rfl

/-! ## `State.writeByte` -/

@[simp] theorem State.writeByte_v (s : State) (a : Nat) (b : Byte) : (s.writeByte a b).v = s.v := rfl
@[simp] theorem State.writeByte_i (s : State) (a : Nat) (b : Byte) : (s.writeByte a b).i = s.i := rfl
@[simp] theorem State.writeByte_pc (s : State) (a : Nat) (b : Byte) : (s.writeByte a b).pc = s.pc := rfl
@[simp] theorem State.writeByte_sp (s : State) (a : Nat) (b : Byte) : (s.writeByte a b).sp = s.sp := rfl
@[simp] theorem State.writeByte_stack (s : State) (a : Nat) (b : Byte) : (s.writeByte a b).stack = s.stack := rfl
@[simp] theorem State.writeByte_dt (s : State) (a : Nat) (b : Byte) : (s.writeByte a b).dt = s.dt := rfl
@[simp] theorem State.writeByte_st (s : State) (a : Nat) (b : Byte) : (s.writeByte a b).st = s.st := rfl
@[simp] theorem State.writeByte_mem (s : State) (a : Nat) (b : Byte) : (s.writeByte a b).mem = Memory.write s.config s.mem (ea a) b := rfl
@[simp] theorem State.writeByte_disp (s : State) (a : Nat) (b : Byte) : (s.writeByte a b).disp = s.disp := rfl
@[simp] theorem State.writeByte_status (s : State) (a : Nat) (b : Byte) : (s.writeByte a b).status = s.status := rfl
@[simp] theorem State.writeByte_config (s : State) (a : Nat) (b : Byte) : (s.writeByte a b).config = s.config := rfl
@[simp] theorem State.writeByte_input (s : State) (a : Nat) (b : Byte) : (s.writeByte a b).input = s.input := rfl
@[simp] theorem State.writeByte_pending (s : State) (a : Nat) (b : Byte) : (s.writeByte a b).pending = s.pending := rfl
@[simp] theorem State.writeByte_steps (s : State) (a : Nat) (b : Byte) : (s.writeByte a b).steps = s.steps := rfl

/-! ## `State.writeFlagged` -/

@[simp] theorem State.writeFlagged_v (s : State) (x : Nibble) (f : Bool) (b : Byte) : (s.writeFlagged x f b).v = (s.v.set 15 (flagByte f)).set x.toNat b x.isLt := rfl
@[simp] theorem State.writeFlagged_i (s : State) (x : Nibble) (f : Bool) (b : Byte) : (s.writeFlagged x f b).i = s.i := rfl
@[simp] theorem State.writeFlagged_pc (s : State) (x : Nibble) (f : Bool) (b : Byte) : (s.writeFlagged x f b).pc = s.pc + 2#16 := rfl
@[simp] theorem State.writeFlagged_sp (s : State) (x : Nibble) (f : Bool) (b : Byte) : (s.writeFlagged x f b).sp = s.sp := rfl
@[simp] theorem State.writeFlagged_stack (s : State) (x : Nibble) (f : Bool) (b : Byte) : (s.writeFlagged x f b).stack = s.stack := rfl
@[simp] theorem State.writeFlagged_dt (s : State) (x : Nibble) (f : Bool) (b : Byte) : (s.writeFlagged x f b).dt = s.dt := rfl
@[simp] theorem State.writeFlagged_st (s : State) (x : Nibble) (f : Bool) (b : Byte) : (s.writeFlagged x f b).st = s.st := rfl
@[simp] theorem State.writeFlagged_mem (s : State) (x : Nibble) (f : Bool) (b : Byte) : (s.writeFlagged x f b).mem = s.mem := rfl
@[simp] theorem State.writeFlagged_disp (s : State) (x : Nibble) (f : Bool) (b : Byte) : (s.writeFlagged x f b).disp = s.disp := rfl
@[simp] theorem State.writeFlagged_status (s : State) (x : Nibble) (f : Bool) (b : Byte) : (s.writeFlagged x f b).status = s.status := rfl
@[simp] theorem State.writeFlagged_config (s : State) (x : Nibble) (f : Bool) (b : Byte) : (s.writeFlagged x f b).config = s.config := rfl
@[simp] theorem State.writeFlagged_input (s : State) (x : Nibble) (f : Bool) (b : Byte) : (s.writeFlagged x f b).input = s.input := rfl
@[simp] theorem State.writeFlagged_pending (s : State) (x : Nibble) (f : Bool) (b : Byte) : (s.writeFlagged x f b).pending = s.pending := rfl
@[simp] theorem State.writeFlagged_steps (s : State) (x : Nibble) (f : Bool) (b : Byte) : (s.writeFlagged x f b).steps = s.steps := rfl

/-! ## `State.beginStep` -/

@[simp] theorem State.beginStep_v (s : State) : (s.beginStep).v = s.v := rfl
@[simp] theorem State.beginStep_i (s : State) : (s.beginStep).i = s.i := rfl
@[simp] theorem State.beginStep_pc (s : State) : (s.beginStep).pc = s.pc := rfl
@[simp] theorem State.beginStep_sp (s : State) : (s.beginStep).sp = s.sp := rfl
@[simp] theorem State.beginStep_stack (s : State) : (s.beginStep).stack = s.stack := rfl
@[simp] theorem State.beginStep_dt (s : State) : (s.beginStep).dt = timerAfter s.nextInput.ticks s.dt := rfl
@[simp] theorem State.beginStep_st (s : State) : (s.beginStep).st = timerAfter s.nextInput.ticks s.st := rfl
@[simp] theorem State.beginStep_mem (s : State) : (s.beginStep).mem = s.mem := rfl
@[simp] theorem State.beginStep_disp (s : State) : (s.beginStep).disp = s.disp := rfl
@[simp] theorem State.beginStep_status (s : State) : (s.beginStep).status = s.status := rfl
@[simp] theorem State.beginStep_config (s : State) : (s.beginStep).config = s.config := rfl
@[simp] theorem State.beginStep_input (s : State) : (s.beginStep).input = s.nextInput := rfl
@[simp] theorem State.beginStep_pending (s : State) : (s.beginStep).pending = s.pending.tail := rfl
@[simp] theorem State.beginStep_steps (s : State) : (s.beginStep).steps = s.steps + 1 := rfl

/-! ## `State.writeBytes`: only memory -/

@[simp] theorem State.writeBytes_v (s : State) (a : Nat) (bs : List Byte) : (s.writeBytes a bs).v = s.v := by
  induction bs generalizing s a with
  | nil => rfl
  | cons b bs ih => exact ih (s.writeByte a b) (a + 1)

@[simp] theorem State.writeBytes_i (s : State) (a : Nat) (bs : List Byte) : (s.writeBytes a bs).i = s.i := by
  induction bs generalizing s a with
  | nil => rfl
  | cons b bs ih => exact ih (s.writeByte a b) (a + 1)

@[simp] theorem State.writeBytes_pc (s : State) (a : Nat) (bs : List Byte) : (s.writeBytes a bs).pc = s.pc := by
  induction bs generalizing s a with
  | nil => rfl
  | cons b bs ih => exact ih (s.writeByte a b) (a + 1)

@[simp] theorem State.writeBytes_sp (s : State) (a : Nat) (bs : List Byte) : (s.writeBytes a bs).sp = s.sp := by
  induction bs generalizing s a with
  | nil => rfl
  | cons b bs ih => exact ih (s.writeByte a b) (a + 1)

@[simp] theorem State.writeBytes_stack (s : State) (a : Nat) (bs : List Byte) : (s.writeBytes a bs).stack = s.stack := by
  induction bs generalizing s a with
  | nil => rfl
  | cons b bs ih => exact ih (s.writeByte a b) (a + 1)

@[simp] theorem State.writeBytes_dt (s : State) (a : Nat) (bs : List Byte) : (s.writeBytes a bs).dt = s.dt := by
  induction bs generalizing s a with
  | nil => rfl
  | cons b bs ih => exact ih (s.writeByte a b) (a + 1)

@[simp] theorem State.writeBytes_st (s : State) (a : Nat) (bs : List Byte) : (s.writeBytes a bs).st = s.st := by
  induction bs generalizing s a with
  | nil => rfl
  | cons b bs ih => exact ih (s.writeByte a b) (a + 1)

@[simp] theorem State.writeBytes_disp (s : State) (a : Nat) (bs : List Byte) : (s.writeBytes a bs).disp = s.disp := by
  induction bs generalizing s a with
  | nil => rfl
  | cons b bs ih => exact ih (s.writeByte a b) (a + 1)

@[simp] theorem State.writeBytes_status (s : State) (a : Nat) (bs : List Byte) : (s.writeBytes a bs).status = s.status := by
  induction bs generalizing s a with
  | nil => rfl
  | cons b bs ih => exact ih (s.writeByte a b) (a + 1)

@[simp] theorem State.writeBytes_config (s : State) (a : Nat) (bs : List Byte) : (s.writeBytes a bs).config = s.config := by
  induction bs generalizing s a with
  | nil => rfl
  | cons b bs ih => exact ih (s.writeByte a b) (a + 1)

@[simp] theorem State.writeBytes_input (s : State) (a : Nat) (bs : List Byte) : (s.writeBytes a bs).input = s.input := by
  induction bs generalizing s a with
  | nil => rfl
  | cons b bs ih => exact ih (s.writeByte a b) (a + 1)

@[simp] theorem State.writeBytes_pending (s : State) (a : Nat) (bs : List Byte) : (s.writeBytes a bs).pending = s.pending := by
  induction bs generalizing s a with
  | nil => rfl
  | cons b bs ih => exact ih (s.writeByte a b) (a + 1)

@[simp] theorem State.writeBytes_steps (s : State) (a : Nat) (bs : List Byte) : (s.writeBytes a bs).steps = s.steps := by
  induction bs generalizing s a with
  | nil => rfl
  | cons b bs ih => exact ih (s.writeByte a b) (a + 1)

end Sys2Proof.Machine
end

