-- ==== Sys2Proof/Laws/Ops.lean ====
section
/-! SUPPORT. One lemma for each shared operation: registers, memory through `ea`, ranges, timers, inputs, reset. -/

namespace Sys2Proof.Machine

/-! ## Registers -/

/-- Reading a register after a write to one. -/
theorem State.reg_setReg (s : State) (x r : Nibble) (b : Byte) :
    (s.setReg x b).reg r = if r = x then b else s.reg r := by
  unfold State.reg State.setReg
  rw [Vector.getElem_set]
  by_cases h : r = x
  · simp [h]
  · have : ¬x.toNat = r.toNat := fun e => h (BitVec.eq_of_toNat_eq e.symm)
    simp [h, this]

@[simp] theorem State.reg_setReg_same (s : State) (x : Nibble) (b : Byte) : (s.setReg x b).reg x = b := by
  simp [State.reg_setReg]

/-- Reading a register depends only on the register file. -/
theorem State.reg_congr {s t : State} (h : t.v = s.v) (r : Nibble) : t.reg r = s.reg r := by
  unfold State.reg; simp [h]

@[simp] theorem State.reg_setFlag (s : State) (f : Bool) (r : Nibble) :
    (s.setFlag f).reg r = if r = 0xF#4 then flagByte f else s.reg r := State.reg_setReg s 0xF#4 r _

@[simp] theorem State.reg_advance (s : State) (r : Nibble) : s.advance.reg r = s.reg r := rfl
@[simp] theorem State.reg_skipIf (s : State) (c : Bool) (r : Nibble) : (s.skipIf c).reg r = s.reg r := rfl
@[simp] theorem State.reg_jumpTo (s : State) (w : Word) (r : Nibble) : (s.jumpTo w).reg r = s.reg r := rfl
@[simp] theorem State.reg_raise (s : State) (c : Cause) (r : Nibble) : (s.raise c).reg r = s.reg r := rfl
@[simp] theorem State.reg_writeByte (s : State) (a : Nat) (b : Byte) (r : Nibble) : (s.writeByte a b).reg r = s.reg r := rfl
@[simp] theorem State.reg_writeBytes (s : State) (a : Nat) (bs : List Byte) (r : Nibble) :
    (s.writeBytes a bs).reg r = s.reg r := State.reg_congr (by simp) r
@[simp] theorem State.reg_beginStep (s : State) (r : Nibble) : s.beginStep.reg r = s.reg r := rfl

/-- The register file of an instruction with a flag: the result wins over the flag when `x = 15` (42_load_alu R159). -/
theorem State.reg_writeFlagged (s : State) (x r : Nibble) (f : Bool) (b : Byte) :
    (s.writeFlagged x f b).reg r = if r = x then b else if r = 0xF#4 then flagByte f else s.reg r := by
  simp [State.writeFlagged, State.reg_setReg]

/-! ## Memory -/

/-- Reading a byte depends only on memory and the parameters. -/
theorem State.readByte_congr {s t : State} (hm : t.mem = s.mem) (hc : t.config = s.config) (a : Nat) :
    t.readByte a = s.readByte a := by
  unfold State.readByte; rw [hm, hc]

@[simp] theorem State.readByte_setReg (s : State) (x : Nibble) (b : Byte) (a : Nat) :
    (s.setReg x b).readByte a = s.readByte a := rfl
@[simp] theorem State.readByte_setFlag (s : State) (f : Bool) (a : Nat) : (s.setFlag f).readByte a = s.readByte a := rfl
@[simp] theorem State.readByte_advance (s : State) (a : Nat) : s.advance.readByte a = s.readByte a := rfl
@[simp] theorem State.readByte_skipIf (s : State) (c : Bool) (a : Nat) : (s.skipIf c).readByte a = s.readByte a := rfl
@[simp] theorem State.readByte_jumpTo (s : State) (w : Word) (a : Nat) : (s.jumpTo w).readByte a = s.readByte a := rfl
@[simp] theorem State.readByte_raise (s : State) (c : Cause) (a : Nat) : (s.raise c).readByte a = s.readByte a := rfl
@[simp] theorem State.readByte_writeFlagged (s : State) (x : Nibble) (f : Bool) (b : Byte) (a : Nat) :
    (s.writeFlagged x f b).readByte a = s.readByte a := rfl
@[simp] theorem State.readByte_beginStep (s : State) (a : Nat) : s.beginStep.readByte a = s.readByte a := rfl

/-- A read after a store of one byte; addresses that `ea` makes equal are one cell. -/
theorem State.readByte_writeByte (s : State) (a a' : Nat) (b : Byte) :
    (s.writeByte a b).readByte a' = if ea a' = ea a then b else s.readByte a' :=
  Memory.read_write s.config s.mem (ea a) (ea a') b

/-- An address that is none of those stored to reads as before. -/
theorem State.readByte_writeBytes_other (s : State) (base a : Nat) (bs : List Byte)
    (h : ∀ k < bs.length, ea a ≠ ea (base + k)) : (s.writeBytes base bs).readByte a = s.readByte a := by
  induction bs generalizing s base with
  | nil => rfl
  | cons b bs ih =>
    have h0 : ea a ≠ ea base := by simpa using h 0 (by simp)
    have hs := ih (s.writeByte base b) (base + 1) (fun k hk => by
      have := h (k + 1) (by simpa using hk)
      rwa [show base + (k + 1) = base + 1 + k by omega] at this)
    show ((s.writeByte base b).writeBytes (base + 1) bs).readByte a = _
    rw [hs, State.readByte_writeByte, if_neg h0]

/-- The k-th of at most 4096 stored bytes reads back at its address. -/
theorem State.readByte_writeBytes_same (s : State) (base k : Nat) (bs : List Byte) (hlen : bs.length ≤ 4096)
    (hk : k < bs.length) : (s.writeBytes base bs).readByte (base + k) = bs[k] := by
  induction bs generalizing s base k with
  | nil => simp at hk
  | cons b bs ih =>
    have hl : bs.length + 1 ≤ 4096 := by simpa using hlen
    show ((s.writeByte base b).writeBytes (base + 1) bs).readByte (base + k) = _
    cases k with
    | zero =>
      rw [State.readByte_writeBytes_other _ _ _ _ (fun j hj => by unfold ea; omega), State.readByte_writeByte]
      simp
    | succ k =>
      have := ih (s.writeByte base b) (base + 1) k (by omega) (by simpa using hk)
      rw [show base + (k + 1) = base + 1 + k by omega, this]
      rfl

/-- A store keeps memory in canonical form. -/
theorem State.wf_writeByte (s : State) (a : Nat) (b : Byte) (h : Memory.wf s.config s.mem) :
    Memory.wf (s.writeByte a b).config (s.writeByte a b).mem :=
  Memory.wf_write _ _ _ _ h (Nat.mod_lt _ (by decide))

/-- So do any number of stores. -/
theorem State.wf_writeBytes (s : State) (a : Nat) (bs : List Byte) (h : Memory.wf s.config s.mem) :
    Memory.wf (s.writeBytes a bs).config (s.writeBytes a bs).mem := by
  induction bs generalizing s a with
  | nil => exact h
  | cons b bs ih => exact ih _ _ (s.wf_writeByte a b h)

/-- The k-th byte of a range. -/
theorem State.readBytes_getElem (s : State) (base n k : Nat) (h : k < n) :
    (s.readBytes base n)[k]'(by simpa [State.readBytes] using h) = s.readByte (base + k) := by
  simp [State.readBytes]

@[simp] theorem State.readBytes_length (s : State) (base n : Nat) : (s.readBytes base n).length = n := by
  simp [State.readBytes]

/-! ## Ranges under the policy `fault` -/

/-- No address is reported exactly when the range is accessible. -/
theorem State.addressFault_eq_none (s : State) (base count : Nat) :
    s.addressFault base count = none ↔
      s.config.addrPolicy = .mask ∨ count = 0 ∨ base + (count - 1) ≤ 0x0FFF := by
  unfold State.addressFault
  cases s.config.addrPolicy with
  | mask => simp
  | fault => simp; omega

/-- The address reported is the first of the range above 0x0FFF. -/
theorem State.addressFault_eq_some (s : State) (base count a : Nat) :
    s.addressFault base count = some a ↔
      s.config.addrPolicy = .fault ∧ 0 < count ∧ 0x0FFF < base + (count - 1) ∧ a = max base 0x1000 := by
  unfold State.addressFault
  split
  · next h => simp [h]; exact eq_comm
  · next h => simp only [reduceCtorEq, false_iff]; tauto

/-- A guarded data access is what was to be done, when the range is accessible. -/
theorem State.guardData_of_canAccess (s done : State) (count : Nat)
    (h : s.config.addrPolicy = .mask ∨ count = 0 ∨ s.i.toNat + (count - 1) ≤ 0x0FFF) : s.guardData count done = done := by
  unfold State.guardData; rw [(s.addressFault_eq_none _ _).mpr h]

/-- All a guarded data access can do. -/
theorem State.guardData_cases (s done : State) (count : Nat) :
    s.guardData count done = done ∨
      (s.config.addrPolicy = .fault ∧ 0 < count ∧ 0x0FFF < s.i.toNat + (count - 1) ∧
        s.guardData count done = s.raise (.addressRange (max s.i.toNat 0x1000) s.pc)) := by
  unfold State.guardData
  cases h : s.addressFault s.i.toNat count with
  | none => exact .inl rfl
  | some a =>
    obtain ⟨h1, h2, h3, rfl⟩ := (s.addressFault_eq_some _ _ _).mp h
    exact .inr ⟨h1, h2, h3, rfl⟩

/-! ## Timers -/

/-- A timer counts down to zero and stays there. -/
theorem timerAfter_toNat (n : Nat) (t : Byte) : (timerAfter n t).toNat = t.toNat - n := by
  unfold timerAfter
  have := t.isLt
  split
  · next h => simp [h]
  · rw [BitVec.toNat_ofNat]; omega

/-- Ticks add up: a run of ticks is single ticks in a row. -/
theorem timerAfter_add (m n : Nat) (t : Byte) : timerAfter n (timerAfter m t) = timerAfter (m + n) t := by
  apply BitVec.eq_of_toNat_eq
  simp only [timerAfter_toNat]; omega

/-! ## Reset -/

@[simp] theorem State.hostReset_config (s : State) (image : List Byte) : (s.hostReset image).config = s.config := rfl
@[simp] theorem State.hostReset_input (s : State) (image : List Byte) : (s.hostReset image).input = s.input := rfl
@[simp] theorem State.hostReset_pending (s : State) (image : List Byte) : (s.hostReset image).pending = s.pending := rfl
@[simp] theorem State.hostReset_steps (s : State) (image : List Byte) : (s.hostReset image).steps = s.steps + 1 := rfl

/-- A reset with an acceptable image: every field but memory is at its reset value, and memory is the image stored on the
unlisted contents. -/
theorem State.hostReset_of_fits (s : State) (image : List Byte) (h : image.length ≤ 3584) :
    s.hostReset image =
      { State.reset with
        config := s.config, input := s.input, pending := s.pending, steps := s.steps + 1
        mem := ({ State.reset with config := s.config }.writeBytes 0x200 image).mem } := by
  have hf : imageFits image = true := by simpa [imageFits] using h
  unfold State.hostReset
  rw [if_pos hf]
  simp

end Sys2Proof.Machine
end

