-- ==== Sys2Proof/Laws/Exec.lean ====
section
/-! SUPPORT. What every instruction has in common. -/

namespace Sys2Proof.Machine

/-- All that an instruction can do to the run status: leave it, or raise a fault and do nothing else (60_exceptions R244). -/
theorem exec_status (i : Instr) (s t : State) (h : exec i s = .next t) :
    t.status = s.status ∨ ∃ c, t = s.raise c := by
  cases i <;> simp only [exec] at h
  case clear => cases h; exact .inl rfl
  case ret =>
    unfold execRet at h; split at h
    · cases h; exact .inr ⟨_, rfl⟩
    · split at h <;> cases h; exact .inl rfl
  case call =>
    unfold execCall at h; split at h <;> cases h
    · exact .inl rfl
    · exact .inr ⟨_, rfl⟩
  case loadKey =>
    unfold execLoadKey at h; cases h
    cases s.input.keyEvent <;> exact .inl rfl
  case draw x y n =>
    unfold execDraw at h; cases h
    rcases s.guardData_cases _ n.toNat with e | ⟨_, _, _, e⟩
    · rw [e]; exact .inl rfl
    · rw [e]; exact .inr ⟨_, rfl⟩
  case loadBcd x =>
    unfold execLoadBcd at h; cases h
    rcases s.guardData_cases _ 3 with e | ⟨_, _, _, e⟩
    · rw [e]; left; simp
    · rw [e]; exact .inr ⟨_, rfl⟩
  case storeAll x =>
    unfold execStoreAll at h; cases h
    rcases s.guardData_cases _ 16 with e | ⟨_, _, _, e⟩
    · rw [e]; left; simp
    · rw [e]; exact .inr ⟨_, rfl⟩
  case loadAll x =>
    unfold execLoadAll at h; cases h
    rcases s.guardData_cases _ 16 with e | ⟨_, _, _, e⟩
    · rw [e]; left; simp
    · rw [e]; exact .inr ⟨_, rfl⟩
  all_goals (cases h; exact .inl rfl)

end Sys2Proof.Machine
end

