-- ==== Sys2Proof/Laws/PerInstr.lean ====
section
/-! SUPPORT. Statements for all instructions, one lemma a constructor. -/

namespace Sys2Proof.Laws.EncodeMatchesPattern

/-- The `mask` and `match` columns of spec/opcode_table.json: the bits a row fixes and their values (30_encoding R100). -/
def pattern : Instr → Word × Word
  | .clear => (0xFFFF, 0x00E0)
  | .ret => (0xFFFF, 0x00EE)
  | .jump _ => (0xF000, 0x1000)
  | .call _ => (0xF000, 0x2000)
  | .skipEqImm _ _ => (0xF000, 0x3000)
  | .skipNeImm _ _ => (0xF000, 0x4000)
  | .skipEqReg _ _ => (0xF00F, 0x5000)
  | .skipNeReg _ _ => (0xF00F, 0x9000)
  | .loadImm _ _ => (0xF000, 0x6000)
  | .loadReg _ _ => (0xF00F, 0x8000)
  | .addImm _ _ => (0xF000, 0x7000)
  | .orReg _ _ => (0xF00F, 0x8001)
  | .andReg _ _ => (0xF00F, 0x8002)
  | .xorReg _ _ => (0xF00F, 0x8003)
  | .addReg _ _ => (0xF00F, 0x8004)
  | .sub _ _ => (0xF00F, 0x8005)
  | .shr _ _ => (0xF00F, 0x8006)
  | .subn _ _ => (0xF00F, 0x8007)
  | .shl _ _ => (0xF00F, 0x800E)
  | .loadI _ => (0xF000, 0xA000)
  | .jumpV0 _ => (0xF000, 0xB000)
  | .random _ _ => (0xF000, 0xC000)
  | .draw _ _ _ => (0xF000, 0xD000)
  | .skipKey _ => (0xF0FF, 0xE09E)
  | .skipNKey _ => (0xF0FF, 0xE0A1)
  | .loadFromDT _ => (0xF0FF, 0xF007)
  | .loadKey _ => (0xF0FF, 0xF00A)
  | .loadDT _ => (0xF0FF, 0xF015)
  | .loadST _ => (0xF0FF, 0xF018)
  | .addI _ => (0xF0FF, 0xF01E)
  | .loadFont _ => (0xF0FF, 0xF029)
  | .loadBcd _ => (0xF0FF, 0xF033)
  | .storeAll _ => (0xF0FF, 0xF055)
  | .loadAll _ => (0xF0FF, 0xF065)

/-- The encoded word has the fixed bits of its row, whatever its operands. -/
def Statement (i : Instr) : Prop := encode i &&& (pattern i).1 = (pattern i).2

theorem packA_masked (op : Nibble) (a : Addr12) : packA op a &&& 0xF000 = packA op 0 := by
  unfold packA; apply BitVec.eq_of_getLsbD_eq; intro i hi
  simp only [BitVec.getLsbD_and, BitVec.getLsbD_append]; interval_cases i <;> simp

theorem packXK_masked (op x : Nibble) (kk : Byte) : packXK op x kk &&& 0xF000 = packXK op 0 0 := by
  unfold packXK; apply BitVec.eq_of_getLsbD_eq; intro i hi
  simp only [BitVec.getLsbD_and, BitVec.getLsbD_append]; interval_cases i <;> simp

theorem packXK_masked_sub (op x : Nibble) (kk : Byte) : packXK op x kk &&& 0xF0FF = packXK op 0 kk := by
  unfold packXK; apply BitVec.eq_of_getLsbD_eq; intro i hi
  simp only [BitVec.getLsbD_and, BitVec.getLsbD_append]; interval_cases i <;> simp

theorem packXYN_masked (op x y n : Nibble) : packXYN op x y n &&& 0xF000 = packXYN op 0 0 0 := by
  unfold packXYN; apply BitVec.eq_of_getLsbD_eq; intro i hi
  simp only [BitVec.getLsbD_and, BitVec.getLsbD_append]; interval_cases i <;> simp

theorem packXYN_masked_sub (op x y n : Nibble) : packXYN op x y n &&& 0xF00F = packXYN op 0 0 n := by
  unfold packXYN; apply BitVec.eq_of_getLsbD_eq; intro i hi
  simp only [BitVec.getLsbD_and, BitVec.getLsbD_append]; interval_cases i <;> simp

theorem clear : Statement .clear := by unfold Statement; decide
theorem ret : Statement .ret := by unfold Statement; decide
theorem jump (nnn : Addr12) : Statement (.jump nnn) := packA_masked _ _
theorem call (nnn : Addr12) : Statement (.call nnn) := packA_masked _ _
theorem skipEqImm (x : Nibble) (kk : Byte) : Statement (.skipEqImm x kk) := packXK_masked _ _ _
theorem skipNeImm (x : Nibble) (kk : Byte) : Statement (.skipNeImm x kk) := packXK_masked _ _ _
theorem skipEqReg (x y : Nibble) : Statement (.skipEqReg x y) := packXYN_masked_sub _ _ _ _
theorem skipNeReg (x y : Nibble) : Statement (.skipNeReg x y) := packXYN_masked_sub _ _ _ _
theorem loadImm (x : Nibble) (kk : Byte) : Statement (.loadImm x kk) := packXK_masked _ _ _
theorem loadReg (x y : Nibble) : Statement (.loadReg x y) := packXYN_masked_sub _ _ _ _
theorem addImm (x : Nibble) (kk : Byte) : Statement (.addImm x kk) := packXK_masked _ _ _
theorem orReg (x y : Nibble) : Statement (.orReg x y) := packXYN_masked_sub _ _ _ _
theorem andReg (x y : Nibble) : Statement (.andReg x y) := packXYN_masked_sub _ _ _ _
theorem xorReg (x y : Nibble) : Statement (.xorReg x y) := packXYN_masked_sub _ _ _ _
theorem addReg (x y : Nibble) : Statement (.addReg x y) := packXYN_masked_sub _ _ _ _
theorem sub (x y : Nibble) : Statement (.sub x y) := packXYN_masked_sub _ _ _ _
theorem shr (x y : Nibble) : Statement (.shr x y) := packXYN_masked_sub _ _ _ _
theorem subn (x y : Nibble) : Statement (.subn x y) := packXYN_masked_sub _ _ _ _
theorem shl (x y : Nibble) : Statement (.shl x y) := packXYN_masked_sub _ _ _ _
theorem loadI (nnn : Addr12) : Statement (.loadI nnn) := packA_masked _ _
theorem jumpV0 (nnn : Addr12) : Statement (.jumpV0 nnn) := packA_masked _ _
theorem random (x : Nibble) (kk : Byte) : Statement (.random x kk) := packXK_masked _ _ _
theorem draw (x y n : Nibble) : Statement (.draw x y n) := packXYN_masked _ _ _ _
theorem skipKey (x : Nibble) : Statement (.skipKey x) := packXK_masked_sub _ _ _
theorem skipNKey (x : Nibble) : Statement (.skipNKey x) := packXK_masked_sub _ _ _
theorem loadFromDT (x : Nibble) : Statement (.loadFromDT x) := packXK_masked_sub _ _ _
theorem loadKey (x : Nibble) : Statement (.loadKey x) := packXK_masked_sub _ _ _
theorem loadDT (x : Nibble) : Statement (.loadDT x) := packXK_masked_sub _ _ _
theorem loadST (x : Nibble) : Statement (.loadST x) := packXK_masked_sub _ _ _
theorem addI (x : Nibble) : Statement (.addI x) := packXK_masked_sub _ _ _
theorem loadFont (x : Nibble) : Statement (.loadFont x) := packXK_masked_sub _ _ _
theorem loadBcd (x : Nibble) : Statement (.loadBcd x) := packXK_masked_sub _ _ _
theorem storeAll (x : Nibble) : Statement (.storeAll x) := packXK_masked_sub _ _ _
theorem loadAll (x : Nibble) : Statement (.loadAll x) := packXK_masked_sub _ _ _

end Sys2Proof.Laws.EncodeMatchesPattern
end

