-- ==== Sys2Proof/Laws/Step.lean ====
section
/-! SUPPORT. All that a fetch and a step can do. -/

namespace Sys2Proof.Machine

/-- The decoder on two bytes is `decodeWord` on their word. -/
theorem decode_two (hi lo : Byte) :
    decode [hi, lo] =
      match decodeWord (wordOfBytes hi lo) with
      | some i => .ok (i, [])
      | none => .error (.illegal (wordOfBytes hi lo)) := rfl

/-- What a fetch answers, check by check (60_exceptions R252). -/
theorem State.fetchInstr_eq (s : State) :
    s.fetchInstr =
      if s.pc.getLsbD 0 then .error (.fetchMisaligned s.pc)
      else match s.addressFault s.pc.toNat 2 with
        | some a => .error (.addressRange a s.pc)
        | none =>
          match decodeWord s.fetchWord with
          | some i => .ok i
          | none => .error (.decodeError s.fetchWord s.pc) := by
  unfold State.fetchInstr
  cases s.pc.getLsbD 0 with
  | true => rfl
  | false =>
    cases s.addressFault s.pc.toNat 2 with
    | some a => rfl
    | none =>
      simp only [decode_two, State.fetchWord]
      cases decodeWord (wordOfBytes (s.readByte s.pc.toNat) (s.readByte (s.pc.toNat + 1))) <;> rfl

/-- An instruction is fetched exactly from an even `pc` in range whose word is legal. -/
theorem State.fetchInstr_ok (s : State) (i : Instr) :
    s.fetchInstr = .ok i ↔
      s.pc.getLsbD 0 = false ∧ s.addressFault s.pc.toNat 2 = none ∧ decodeWord s.fetchWord = some i := by
  rw [State.fetchInstr_eq]
  cases s.pc.getLsbD 0 with
  | true => simp
  | false =>
    cases s.addressFault s.pc.toNat 2 with
    | some a => simp
    | none => cases decodeWord s.fetchWord <;> simp

/-- What the core's step is, once the fetch is known. -/
theorem State.coreStep_running (s : State) (h : s.status = .running) :
    s.coreStep =
      match s.fetchInstr with
      | .ok i => exec i s
      | .error c => .next (s.raise c) := by
  cases hf : s.fetchInstr <;> simp [State.coreStep, h, hf]

/-- A failed core has no step. -/
theorem State.coreStep_failed (s : State) (c : Cause) (h : s.status = .failed c) : s.coreStep = .fault (.coreFailed c) := by
  simp only [State.coreStep, h]

/-- All that a core step answering a next state can have done: a running core either executed the instruction it fetched or
raised the fetch's cause. -/
theorem State.coreStep_next (s t : State) (h : s.coreStep = .next t) :
    s.status = .running ∧
      ((∃ i, s.fetchInstr = .ok i ∧ exec i s = .next t) ∨ ∃ c, s.fetchInstr = .error c ∧ t = s.raise c) := by
  unfold State.coreStep at h
  split at h
  · cases h
  · next hs =>
    refine ⟨hs, ?_⟩
    split at h
    · next i hi => exact .inl ⟨i, hi, h⟩
    · next c hc => cases h; exact .inr ⟨c, hc, rfl⟩

/-- The same of a step of the model, which takes its inputs in first. -/
theorem step_next (s t : State) (h : step s = .next t) :
    s.status = .running ∧
      ((∃ i, s.beginStep.fetchInstr = .ok i ∧ exec i s.beginStep = .next t) ∨
        ∃ c, s.beginStep.fetchInstr = .error c ∧ t = s.beginStep.raise c) :=
  s.beginStep.coreStep_next t h

end Sys2Proof.Machine
end

