-- ==== Sys2Proof/Tests/Slice0.lean ====
section
/-! SUPPORT. The model's own tests: every constructor's decoding by a word written out from the spec's encoding, the
well-formedness smoke test, one or two single steps of each instruction from the vectors of spec/95_test_vectors.md, and a
witness for the hypotheses of each statement. Expected values are the spec's, never the model's. -/

namespace Sys2Proof.Tests

open Sys2Proof.Machine

/-! ## Helpers -/

/-- Nothing happens outside the core at this step. -/
def quiet : StepInput := { ticks := 0, pressed := 0x0000#16, keyEvent := none, random := 0x00#8 }

/-- A step whose random byte is `b`. -/
def drawn (b : Byte) : StepInput := { quiet with random := b }

/-- A step during which the keys `p` are down. -/
def keys (p : BitVec 16) : StepInput := { quiet with pressed := p }

/-- A step that delivers the key event `k`. -/
def event (k : Nibble) : StepInput := { quiet with keyEvent := some k }

/-- `s` with `w` as its next instruction and `inp` as its next inputs. -/
def facing (s : State) (w : Nat) (inp : StepInput := quiet) : State :=
  { s.withFetchWord 16 w with pending := [inp] }

/-- The reset state with the registers listed. -/
def withRegs (rs : List (Nibble × Byte)) : State := rs.foldl (fun s r => s.setReg r.1 r.2) State.reset

/-- The reset state with `I` and the bytes stored there. -/
def withBytes (a : Nat) (bs : List Byte) : State := { State.reset with i := BitVec.ofNat 16 a }.writeBytes a bs

/-- The reset state of a machine with the policy `fault`. -/
def strict : State := { State.reset with config := { defaultConfig with addrPolicy := .fault } }

/-- What `f` reads from the next state, if there is one. -/
def after {α : Type} (o : Host.Outcome State Fault Refusal) (f : State → α) : Option α :=
  match o with
  | .next t => some (f t)
  | .fault _ => none
  | .refused _ => none

/-- The reason of a fault, if the outcome is one. -/
def stopped (o : Host.Outcome State Fault Refusal) : Option Fault :=
  match o with
  | .fault r => some r
  | .next _ => none
  | .refused _ => none

/-- Text from a string literal. -/
abbrev txt (s : String) : Text := s.toList

/-- The bytes of an accepted line, or its error. -/
def encoded (m : String) (ops : List String) : Except AsmError (List Byte) := assemble (txt m) (ops.map txt)

/-- Whether two encoder results agree. -/
def agrees (a b : Except AsmError (List Byte)) : Bool :=
  match a, b with
  | .ok x, .ok y => x = y
  | .error x, .error y => x = y
  | _, _ => false

/-! ## Well-formedness smoke test (10_state R49, 70_reset R283) -/

/-- Every instruction term is well formed; the image check is the one that can refuse. -/
theorem test_instr_well_formed : (Instr.shr 0x1 0x2).wellFormed = true := by decide

/-- S12: an image of 3584 bytes is accepted. -/
theorem test_image_of_3584_fits : imageFits (List.replicate 3584 0x00#8) = true := by
  rw [imageFits, List.length_replicate]; decide

/-- S12: an image of 3585 bytes is refused. -/
theorem test_image_of_3585_refused : imageFits (List.replicate 3585 0x00#8) = false := by
  rw [imageFits, List.length_replicate]; decide

/-! ## Decoding: a word of every row of 30_encoding R100, its digits written out -/

theorem test_decode_flow :
    decodeWord 0b0000_0000_1110_0000 = some .clear ∧ decodeWord 0b0000_0000_1110_1110 = some .ret ∧
    decodeWord 0b0001_0010_0000_0100 = some (.jump 0x204) ∧ decodeWord 0b0010_1010_1011_1100 = some (.call 0xABC) := by
  decide

theorem test_decode_skips :
    decodeWord 0b0011_0001_0010_0011 = some (.skipEqImm 0x1 0x23) ∧
    decodeWord 0b0100_0011_0001_0001 = some (.skipNeImm 0x3 0x11) ∧
    decodeWord 0b0101_0001_0010_0000 = some (.skipEqReg 0x1 0x2) ∧
    decodeWord 0b1001_0001_0010_0000 = some (.skipNeReg 0x1 0x2) ∧
    decodeWord 0b1110_0001_1001_1110 = some (.skipKey 0x1) ∧
    decodeWord 0b1110_0001_1010_0001 = some (.skipNKey 0x1) := by
  decide

theorem test_decode_loads :
    decodeWord 0b0110_0001_0001_0001 = some (.loadImm 0x1 0x11) ∧
    decodeWord 0b0111_0111_0101_0001 = some (.addImm 0x7 0x51) ∧
    decodeWord 0b1010_0010_0000_1100 = some (.loadI 0x20C) ∧
    decodeWord 0b1011_1111_1111_1111 = some (.jumpV0 0xFFF) ∧
    decodeWord 0b1100_0011_0000_1111 = some (.random 0x3 0x0F) ∧
    decodeWord 0b1101_0001_0010_0011 = some (.draw 0x1 0x2 0x3) := by
  decide

theorem test_decode_alu :
    decodeWord 0b1000_0001_0010_0000 = some (.loadReg 0x1 0x2) ∧
    decodeWord 0b1000_0001_0010_0001 = some (.orReg 0x1 0x2) ∧
    decodeWord 0b1000_0001_0010_0010 = some (.andReg 0x1 0x2) ∧
    decodeWord 0b1000_0001_0010_0011 = some (.xorReg 0x1 0x2) ∧
    decodeWord 0b1000_0001_0010_0100 = some (.addReg 0x1 0x2) ∧
    decodeWord 0b1000_0001_0010_0101 = some (.sub 0x1 0x2) ∧
    decodeWord 0b1000_0001_0010_0110 = some (.shr 0x1 0x2) ∧
    decodeWord 0b1000_0001_0010_0111 = some (.subn 0x1 0x2) ∧
    decodeWord 0b1000_0001_0010_1110 = some (.shl 0x1 0x2) := by
  decide

/-- D-DEC-10. -/
theorem test_decode_class_f :
    decodeWord 0b1111_0001_0000_0111 = some (.loadFromDT 0x1) ∧
    decodeWord 0b1111_0001_0000_1010 = some (.loadKey 0x1) ∧
    decodeWord 0b1111_0001_0001_0101 = some (.loadDT 0x1) ∧
    decodeWord 0b1111_0001_0001_1000 = some (.loadST 0x1) ∧
    decodeWord 0b1111_0001_0001_1110 = some (.addI 0x1) ∧
    decodeWord 0b1111_0001_0010_1001 = some (.loadFont 0x1) ∧
    decodeWord 0b1111_0001_0011_0011 = some (.loadBcd 0x1) ∧
    decodeWord 0b1111_0001_0101_0101 = some (.storeAll 0x1) ∧
    decodeWord 0b1111_0001_0110_0101 = some (.loadAll 0x1) := by
  decide

/-- D-DEC-1, D-DEC-3, D-DEC-5 to D-DEC-7, D-DEC-9, D-DEC-11: no neighbour takes an illegal word. -/
theorem test_decode_rejects :
    ([0x0000, 0x00E1, 0x00EF, 0x0123, 0x0FFF, 0x00FE, 0x5121, 0x512F, 0x9121, 0x8128, 0x8129, 0x812A, 0x812B, 0x812C,
      0x812D, 0x812F, 0xE19F, 0xE100, 0xE1A0, 0xF100, 0xF108, 0xF130, 0xF175, 0xF185, 0xF1FF] : List Word).all
      (fun w => (decodeWord w).isNone) = true := by
  decide

/-- A truncated word and an illegal one are rejected under names of their own. -/
theorem test_decode_rejects_by_name :
    decode [0x61] = .error .truncated ∧ decode [0x00, 0x00] = .error (.illegal 0x0000) :=
  ⟨rfl, rfl⟩

/-- The table's numbering: bit 0 is the least significant bit of the word. -/
theorem test_decode_table_word : decodeTableWord 16 0xD123 = some (.draw 0x1 0x2 0x3) := by decide

/-! ## CLEAR, RETURN, JUMP, CALL -/

/-- D-FLOW-1, S11. -/
theorem test_clear :
    after (step (facing { State.reset with disp := Vector.replicate 256 0xFF#8 } 0x00E0))
      (fun t => (t.disp[0], t.disp[255], t.pc, t.reg 0xF)) = some (0x00#8, 0x00#8, 0x0202#16, 0x00#8) := by
  decide

/-- D-FLOW-8: the popped entry keeps its value. -/
theorem test_return :
    after (step (facing { State.reset with sp := 2, stack := State.reset.stack.set 1 0x0456#16 } 0x00EE))
      (fun t => (t.sp, t.pc, t.stack[1])) = some (0x01#8, 0x0456#16, 0x0456#16) := by
  decide

/-- D-FLOW-7: the step raises, `pc` stays. -/
theorem test_return_underflow :
    after (step (facing State.reset 0x00EE)) (fun t => (t.status, t.pc, t.sp)) =
      some (.failed (.stackUnderflow 0x0200), 0x0200#16, 0x00#8) := by
  decide

/-- D-FLOW-2. -/
theorem test_jump : after (step (facing State.reset 0x1ABC)) (fun t => t.pc) = some 0x0ABC#16 := by decide

/-- D-FLOW-5: the last free entry. -/
theorem test_call :
    after (step (facing { State.reset with sp := 15 } 0x2400)) (fun t => (t.stack[15], t.sp, t.pc)) =
      some (0x0202#16, 0x10#8, 0x0400#16) := by
  decide

/-- D-FLOW-6. -/
theorem test_call_overflow :
    after (step (facing { State.reset with sp := 16 } 0x2400)) (fun t => (t.status, t.sp, t.pc)) =
      some (.failed (.stackOverflow 0x0200), 0x10#8, 0x0200#16) := by
  decide

/-! ## Skips -/

/-- D-SKIP-12: the skip wraps modulo 65536; under `mask` the word at 0xFFFE is the one at 0xFFE. -/
theorem test_skip_eq_imm :
    after (step (facing { State.reset with pc := 0xFFFE } 0x3000)) (fun t => t.pc) = some 0x0002#16 := by
  decide

/-- D-SKIP-2. -/
theorem test_skip_eq_imm_not_taken :
    after (step (facing (withRegs [(0x0, 0x01)]) 0x3000)) (fun t => t.pc) = some 0x0202#16 := by
  decide

/-- D-SKIP-3. -/
theorem test_skip_ne_imm :
    after (step (facing (withRegs [(0x3, 0x10)]) 0x4311)) (fun t => t.pc) = some 0x0204#16 := by
  decide

/-- D-SKIP-4. -/
theorem test_skip_ne_imm_not_taken :
    after (step (facing (withRegs [(0x3, 0x11)]) 0x4311)) (fun t => t.pc) = some 0x0202#16 := by
  decide

/-- D-SKIP-5. -/
theorem test_skip_eq_reg :
    after (step (facing (withRegs [(0x1, 0x7F), (0x2, 0x7F)]) 0x5120)) (fun t => t.pc) = some 0x0204#16 := by
  decide

/-- D-SKIP-6. -/
theorem test_skip_eq_reg_not_taken :
    after (step (facing (withRegs [(0x1, 0x7F), (0x2, 0x80)]) 0x5120)) (fun t => t.pc) = some 0x0202#16 := by
  decide

/-- D-SKIP-8. -/
theorem test_skip_ne_reg :
    after (step (facing (withRegs [(0x1, 0x01), (0x2, 0x02)]) 0x9120)) (fun t => t.pc) = some 0x0204#16 := by
  decide

/-- D-SKIP-9. -/
theorem test_skip_ne_reg_same :
    after (step (facing (withRegs [(0x1, 0x55)]) 0x9110)) (fun t => t.pc) = some 0x0202#16 := by
  decide

/-- D-KEY-1, D-KEY-2. -/
theorem test_skip_key :
    after (step (facing (withRegs [(0x2, 0x05)]) 0xE29E (keys 0x0220))) (fun t => t.pc) = some 0x0204#16 ∧
    after (step (facing (withRegs [(0x2, 0x05)]) 0xE29E)) (fun t => t.pc) = some 0x0202#16 := by
  decide

/-- D-KEY-5: 0x15 is no key. -/
theorem test_skip_key_no_such_key :
    after (step (facing (withRegs [(0x2, 0x15)]) 0xE29E (keys 0xFFFF))) (fun t => t.pc) = some 0x0202#16 := by
  decide

/-- D-KEY-3, D-KEY-4. -/
theorem test_skip_not_key :
    after (step (facing (withRegs [(0x2, 0x05)]) 0xE2A1 (keys 0x0020))) (fun t => t.pc) = some 0x0202#16 ∧
    after (step (facing (withRegs [(0x2, 0x05)]) 0xE2A1 (keys 0x0200))) (fun t => t.pc) = some 0x0204#16 := by
  decide

/-- D-KEY-6. -/
theorem test_skip_not_key_no_such_key :
    after (step (facing (withRegs [(0x2, 0x15)]) 0xE2A1 (keys 0xFFFF))) (fun t => t.pc) = some 0x0204#16 := by
  decide

/-! ## Loads and the ALU -/

/-- D-ALU-30. -/
theorem test_load_imm :
    after (step (facing State.reset 0x6111)) (fun t => (t.reg 0x1, t.pc)) = some (0x11#8, 0x0202#16) := by
  decide

/-- D-ALU-1. -/
theorem test_load_reg :
    after (step (facing (withRegs [(0x2, 0xAB)]) 0x8120)) (fun t => (t.reg 0x1, t.reg 0x2)) =
      some (0xAB#8, 0xAB#8) := by
  decide

/-- D-ALU-31: a wrap, no flag. -/
theorem test_add_imm :
    after (step (facing (withRegs [(0x7, 0xF0)]) 0x7751)) (fun t => (t.reg 0x7, t.reg 0xF)) =
      some (0x41#8, 0x00#8) := by
  decide

/-- D-ALU-33: the flag is left as it was. -/
theorem test_add_imm_keeps_flag :
    after (step (facing (withRegs [(0xF, 0x01)]) 0x70FF)) (fun t => (t.reg 0x0, t.reg 0xF)) =
      some (0xFF#8, 0x01#8) := by
  decide

/-- D-ALU-2, with a flag that stays. -/
theorem test_or :
    after (step (facing (withRegs [(0x1, 0xF0), (0x2, 0x0F), (0xF, 0x77)]) 0x8121))
      (fun t => (t.reg 0x1, t.reg 0xF)) = some (0xFF#8, 0x77#8) := by
  decide

/-- D-ALU-3. -/
theorem test_and :
    after (step (facing (withRegs [(0x1, 0xF3), (0x2, 0x3F), (0xF, 0x77)]) 0x8122))
      (fun t => (t.reg 0x1, t.reg 0xF)) = some (0x33#8, 0x77#8) := by
  decide

/-- D-ALU-4. -/
theorem test_xor :
    after (step (facing (withRegs [(0x1, 0xFF), (0x2, 0x0F), (0xF, 0x77)]) 0x8123))
      (fun t => (t.reg 0x1, t.reg 0xF)) = some (0xF0#8, 0x77#8) := by
  decide

/-- D-ALU-50: source and destination are one register. -/
theorem test_xor_self :
    after (step (facing (withRegs [(0x1, 0x22)]) 0x8113)) (fun t => t.reg 0x1) = some 0x00#8 := by
  decide

/-- D-ALU-5, D-ALU-8. -/
theorem test_add :
    after (step (facing (withRegs [(0x1, 0xC8), (0x2, 0x64)]) 0x8124)) (fun t => (t.reg 0x1, t.reg 0xF)) =
      some (0x2C#8, 0x01#8) ∧
    after (step (facing (withRegs [(0x1, 0x80), (0x2, 0x7F)]) 0x8124)) (fun t => (t.reg 0x1, t.reg 0xF)) =
      some (0xFF#8, 0x00#8) := by
  decide

/-- D-ALU-40, D-ALU-42, D-ALU-45: `VF` as source, as destination, as both. -/
theorem test_add_flag_register :
    after (step (facing (withRegs [(0x1, 0xFF), (0xF, 0x01)]) 0x81F4)) (fun t => (t.reg 0x1, t.reg 0xF)) =
      some (0x00#8, 0x01#8) ∧
    after (step (facing (withRegs [(0xF, 0xF0), (0x2, 0x20)]) 0x8F24)) (fun t => t.reg 0xF) = some 0x10#8 ∧
    after (step (facing (withRegs [(0xF, 0x90)]) 0x8FF4)) (fun t => t.reg 0xF) = some 0x20#8 := by
  decide

/-- D-ALU-10, D-ALU-11: equality is no borrow. -/
theorem test_sub :
    after (step (facing (withRegs [(0x1, 0x05), (0x2, 0x0A)]) 0x8125)) (fun t => (t.reg 0x1, t.reg 0xF)) =
      some (0xFB#8, 0x00#8) ∧
    after (step (facing (withRegs [(0x1, 0x10), (0x2, 0x10)]) 0x8125)) (fun t => (t.reg 0x1, t.reg 0xF)) =
      some (0x00#8, 0x01#8) := by
  decide

/-- D-ALU-41, D-ALU-43. -/
theorem test_sub_flag_register :
    after (step (facing (withRegs [(0x1, 0x05), (0xF, 0x01)]) 0x81F5)) (fun t => (t.reg 0x1, t.reg 0xF)) =
      some (0x04#8, 0x01#8) ∧
    after (step (facing (withRegs [(0xF, 0x05), (0x2, 0x03)]) 0x8F25)) (fun t => t.reg 0xF) = some 0x02#8 := by
  decide

/-- D-ALU-18: `y` is ignored. -/
theorem test_shr :
    after (step (facing (withRegs [(0x1, 0xFF), (0x2, 0x55)]) 0x8126))
      (fun t => (t.reg 0x1, t.reg 0xF, t.reg 0x2)) = some (0x7F#8, 0x01#8, 0x55#8) := by
  decide

/-- D-ALU-47. -/
theorem test_shr_flag_register :
    after (step (facing (withRegs [(0xF, 0x03)]) 0x8F06)) (fun t => t.reg 0xF) = some 0x01#8 := by
  decide

/-- D-ALU-19, D-ALU-22. -/
theorem test_subn :
    after (step (facing (withRegs [(0x1, 0x05), (0x2, 0x0A)]) 0x8127)) (fun t => (t.reg 0x1, t.reg 0xF)) =
      some (0x05#8, 0x01#8) ∧
    after (step (facing (withRegs [(0x1, 0xFF), (0x2, 0x00)]) 0x8127)) (fun t => (t.reg 0x1, t.reg 0xF)) =
      some (0x01#8, 0x00#8) := by
  decide

/-- D-ALU-44. -/
theorem test_subn_flag_register :
    after (step (facing (withRegs [(0xF, 0x05), (0x2, 0x03)]) 0x8F27)) (fun t => t.reg 0xF) = some 0xFE#8 := by
  decide

/-- D-ALU-23, D-ALU-25. -/
theorem test_shl :
    after (step (facing (withRegs [(0x1, 0x81)]) 0x812E)) (fun t => (t.reg 0x1, t.reg 0xF)) =
      some (0x02#8, 0x01#8) ∧
    after (step (facing (withRegs [(0x1, 0x7F)]) 0x812E)) (fun t => (t.reg 0x1, t.reg 0xF)) =
      some (0xFE#8, 0x00#8) := by
  decide

/-- D-ALU-48. -/
theorem test_shl_flag_register :
    after (step (facing (withRegs [(0xF, 0x81)]) 0x8F0E)) (fun t => t.reg 0xF) = some 0x02#8 := by
  decide

/-! ## LOAD I, JUMP V0, RANDOM -/

/-- D-IDX-1. -/
theorem test_load_i :
    after (step (facing State.reset 0xAFFF)) (fun t => (t.i, t.pc)) = some (0x0FFF#16, 0x0202#16) := by
  decide

/-- D-IDX-2, D-IDX-3. -/
theorem test_jump_v0 :
    after (step (facing (withRegs [(0x0, 0x04)]) 0xB300)) (fun t => t.pc) = some 0x0304#16 ∧
    after (step (facing (withRegs [(0x0, 0xFF)]) 0xBFFF)) (fun t => t.pc) = some 0x10FE#16 := by
  decide

/-- D-IDX-5. -/
theorem test_random :
    after (step (facing State.reset 0xC30F (drawn 0xA7))) (fun t => (t.reg 0x3, t.reg 0xF)) =
      some (0x07#8, 0x00#8) := by
  decide

/-- D-IDX-6: the mask 0x00 gives 0x00 whatever byte comes: no input is supplied here. -/
theorem test_random_masked_out :
    after (exec (.random 0x3 0x00) (State.reset.withFetchWord 16 0xC300)) (fun t => t.reg 0x3) = some 0x00#8 := by
  decide

/-! ## DRAW -/

/-- D-DRAW-2: both wraps, at the corner. -/
theorem test_draw_wraps :
    after (step (facing ((withBytes 0x300 [0xFF]).setReg 0x0 60 |>.setReg 0x1 31) 0xD011))
      (fun t => (t.disp[255], t.disp[248], t.disp[247], t.reg 0xF, t.pc)) =
      some (0x0F#8, 0xF0#8, 0x00#8, 0x00#8, 0x0202#16) := by
  decide

/-- D-DRAW-6: a partial overlap collides. -/
theorem test_draw_collides :
    after (step (facing { (withBytes 0x300 [0xFF]).setReg 0x0 2 with disp := blankDisplay.set 0 0xF0#8 } 0xD011))
      (fun t => (t.disp[0], t.disp[1], t.reg 0xF)) = some (0xCF#8, 0xC0#8, 0x01#8) := by
  decide

/-! ## Class F -/

/-- D-F-1. -/
theorem test_load_from_dt :
    after (step (facing { State.reset with dt := 0x2A } 0xF307)) (fun t => (t.reg 0x3, t.dt)) =
      some (0x2A#8, 0x2A#8) := by
  decide

/-- D-F-3. -/
theorem test_load_key :
    after (step (facing State.reset 0xF20A (event 0x7))) (fun t => (t.reg 0x2, t.pc)) =
      some (0x07#8, 0x0202#16) := by
  decide

/-- D-F-2: no event, the core holds. -/
theorem test_load_key_holds :
    after (step (facing State.reset 0xF20A (keys 0xFFFF))) (fun t => (t.reg 0x2, t.pc, t.status)) =
      some (0x00#8, 0x0200#16, .running) := by
  decide

/-- D-F-4. -/
theorem test_load_dt :
    after (step (facing (withRegs [(0x0, 0x03)]) 0xF015)) (fun t => (t.dt, t.tick.dt, t.tick.tick.tick.tick.dt)) =
      some (0x03#8, 0x02#8, 0x00#8) := by
  decide

/-- D-F-5. -/
theorem test_load_st :
    after (step (facing (withRegs [(0x4, 0x10)]) 0xF418)) (fun t => (t.st, t.dt)) = some (0x10#8, 0x00#8) := by
  decide

/-- D-F-8: past 0x0FFF without a flag. -/
theorem test_add_i :
    after (step (facing { withRegs [(0x1, 0x01)] with i := 0x0FFF } 0xF11E)) (fun t => (t.i, t.reg 0xF)) =
      some (0x1000#16, 0x00#8) := by
  decide

/-- D-F-9: modulo 65536. -/
theorem test_add_i_wraps :
    after (step (facing { withRegs [(0x1, 0x01)] with i := 0xFFFF } 0xF11E)) (fun t => t.i) = some 0x0000#16 := by
  decide

/-- D-F-10, D-F-11: the low nibble only. -/
theorem test_load_font :
    after (step (facing (withRegs [(0x0, 0x07)]) 0xF029)) (fun t => t.i) = some 0x0023#16 ∧
    after (step (facing (withRegs [(0x0, 0x1A)]) 0xF029)) (fun t => t.i) = some 0x0032#16 := by
  decide

/-- D-F-13 for 254. -/
theorem test_load_bcd :
    after (step (facing { withRegs [(0x0, 254)] with i := 0x0300 } 0xF033)) (fun t => (t.readBytes 0x300 4, t.i)) =
      some ([2, 5, 4, 0], 0x0300#16) := by
  decide

/-- D-F-14: the last digit lands on glyph 0's first byte. -/
theorem test_load_bcd_wraps :
    after (step (facing { withRegs [(0x0, 123)] with i := 0x0FFE } 0xF033))
      (fun t => (t.readBytes 0xFFE 2, t.readByte 0x000)) = some ([1, 2], 3) := by
  decide

/-- D-F-16: all 16 registers although `x` is 0, across the end of memory. -/
theorem test_store_all :
    after (step (facing
        { State.reset with i := 0x0FF8, v := Vector.ofFn (fun k : Fin 16 => BitVec.ofNat 8 (16 + k.val)) } 0xF055))
      (fun t => (t.readByte 0xFF8, t.readByte 0xFFF, t.readByte 0x000, t.readByte 0x007, t.i)) =
      some (0x10#8, 0x17#8, 0x18#8, 0x1F#8, 0x0FF8#16) := by
  decide

/-- D-F-18: the bulk load reads the glyph table. -/
theorem test_load_all :
    after (step (facing State.reset 0xF465))
      (fun t => (t.reg 0x0, t.reg 0x4, t.reg 0x6, t.reg 0xC, t.reg 0xF, t.i)) =
      some (0xF0#8, 0xF0#8, 0x60#8, 0xF0#8, 0xF0#8, 0x0000#16) := by
  decide

/-! ## Faults, reset, runs -/

/-- 2.10: an empty machine's first step. -/
theorem test_empty_reset_faults :
    after (step { State.reset with pending := [quiet] }) (fun t => (t.status, t.pc)) =
      some (.failed (.decodeError 0x0000 0x0200), 0x0200#16) := by
  decide

/-- D-FLOW-3: the odd target is found by the next fetch. -/
theorem test_odd_pc :
    after (step { State.reset with pc := 0x0201, pending := [quiet] }) (fun t => (t.status, t.pc, t.statusCode)) =
      some (.failed (.fetchMisaligned 0x0201), 0x0201#16, 5) := by
  decide

/-- R245: a failed core has no step; R242: its `STATUS` code. -/
theorem test_failed_has_no_step :
    stopped (step (State.reset.raise (.stackOverflow 0x0200))) = some (.coreFailed (.stackOverflow 0x0200)) ∧
    (State.reset.raise (.stackOverflow 0x0200)).statusCode = 3 := by
  decide

/-- R251: the whole range is checked before any byte is written. -/
theorem test_strict_bcd :
    after (step (facing { strict with i := 0x0FFE } 0xF033)) (fun t => (t.status, t.pc, t.readByte 0xFFE)) =
      some (.failed (.addressRange 0x1000 0x0200), 0x0200#16, 0x00#8) := by
  decide

/-- R270: a step that fails ends the run with its cause, although the cancel signal is set right after it. -/
theorem test_run_ends_on_failure :
    (match runUntil [false, true] (facing State.reset 0x00EE) with
      | .failed c t => some (c, t.status, t.pc)
      | _ => none) =
      some (.stackUnderflow 0x0200, .failed (.stackUnderflow 0x0200), 0x0200#16) := by
  decide

/-- R270: a cancelled run leaves the state of the last completed step, still running. -/
theorem test_run_cancelled :
    (match runUntil [false, true] (facing State.reset 0x6111) with
      | .cancelled t => some (t.reg 0x1, t.status, t.pc)
      | _ => none) = some (0x11#8, .running, 0x0202#16) := by
  decide

/-- S11, R281: a reset with an image, from a machine that had failed. -/
theorem test_reset_loads :
    after (act (.reset [0x00, 0xE0]) (State.reset.raise (.stackOverflow 0x0200)))
      (fun t => (t.status, t.readBytes 0x200 3, t.readByte 0x000, t.pc)) =
      some (.running, [0x00, 0xE0, 0x00], 0xF0#8, 0x0200#16) := by
  decide

/-- The pieces of the state export (10_state R54). -/
theorem test_snapshot :
    (withRegs [(0x2, 0x15)]).snapshot.v[2] = 0x15#8 ∧ (withRegs [(0x2, 0x15)]).snapshot.pc = 0x0200#16 ∧
    State.reset.frame.length = 256 := by
  refine ⟨by decide, by decide, by simp [State.frame]⟩

/-! ## The encoder on text (D-ENC) -/

/-- S8, S9, S10. -/
theorem test_encode_source :
    agrees (encoded "LOAD" ["V1", "0x11"]) (.ok [0x61, 0x11]) = true ∧
    agrees (encoded "ADD" ["V7", "0x51"]) (.ok [0x77, 0x51]) = true ∧
    agrees (encoded "DRAW" ["V1", "V2", "0x03"]) (.ok [0xD1, 0x23]) = true := by
  decide

/-- D-ENC-1, D-ENC-3, D-ENC-4, D-ENC-7: aliases, letter case, prefix or none. -/
theorem test_encode_aliases :
    agrees (encoded "cls" []) (.ok [0x00, 0xE0]) = true ∧ agrees (encoded "JP" ["204"]) (.ok [0x12, 0x04]) = true ∧
    agrees (encoded "jump" ["v0", "300"]) (.ok [0xB3, 0x00]) = true ∧
    agrees (encoded "SE" ["V0", "0"]) (.ok [0x30, 0x00]) = true ∧
    agrees (encoded "RND" ["V3", "0F"]) (.ok [0xC3, 0x0F]) = true := by
  decide

/-- D-ENC-14 to D-ENC-21: one mnemonic, many shapes. -/
theorem test_encode_load_shapes :
    agrees (encoded "LOAD" ["V3", "DT"]) (.ok [0xF3, 0x07]) = true ∧
    agrees (encoded "LOAD" ["V2", "K"]) (.ok [0xF2, 0x0A]) = true ∧
    agrees (encoded "LOAD" ["DT", "V0"]) (.ok [0xF0, 0x15]) = true ∧
    agrees (encoded "LOAD" ["ST", "V4"]) (.ok [0xF4, 0x18]) = true ∧
    agrees (encoded "LOAD" ["F", "V0"]) (.ok [0xF0, 0x29]) = true ∧
    agrees (encoded "LOAD" ["B", "V0"]) (.ok [0xF0, 0x33]) = true ∧
    agrees (encoded "LOAD" ["I", "V2"]) (.ok [0xF2, 0x55]) = true ∧
    agrees (encoded "LOAD" ["V0", "I"]) (.ok [0xF0, 0x65]) = true ∧
    agrees (encoded "LOAD" ["I", "0x20C"]) (.ok [0xA2, 0x0C]) = true := by
  decide

/-- D-ENC-8, D-ENC-10, D-ENC-25, D-ENC-27, D-ENC-32. -/
theorem test_encode_registers :
    agrees (encoded "SKIPEQ" ["V1", "V2"]) (.ok [0x51, 0x20]) = true ∧
    agrees (encoded "SKIPNE" ["V1", "V2"]) (.ok [0x91, 0x20]) = true ∧
    agrees (encoded "ADD" ["I", "V1"]) (.ok [0xF1, 0x1E]) = true ∧
    agrees (encoded "SHR" ["V1"]) (.ok [0x81, 0x06]) = true ∧
    agrees (encoded "SHR" ["V1", "V2"]) (.ok [0x81, 0x26]) = true ∧
    agrees (encoded "SKIPNKEY" ["V2"]) (.ok [0xE2, 0xA1]) = true := by
  decide

/-- D-ENC-5, D-ENC-13, D-ENC-22, D-ENC-35. -/
theorem test_encode_invalid_operands :
    agrees (encoded "JUMP" ["V1", "300"]) (.error (.invalidOperands (txt "JUMP") [txt "V1", txt "300"])) = true ∧
    agrees (encoded "LOAD" ["I", "0x20"]) (.error (.invalidOperands (txt "LOAD") [txt "I", txt "0x20"])) = true ∧
    agrees (encoded "LOAD" ["V1", "B"]) (.error (.invalidOperands (txt "LOAD") [txt "V1", txt "B"])) = true ∧
    agrees (encoded "LOAD" ["V1", "100"]) (.error (.invalidOperands (txt "LOAD") [txt "V1", txt "100"])) = true := by
  decide

/-- D-ENC-31, D-ENC-33, D-ENC-34, D-ENC-36, D-ENC-37. -/
theorem test_encode_bad_literals :
    agrees (encoded "DRAW" ["V0", "V1", "0x10"]) (.error (.badLiteral (txt "0x10"))) = true ∧
    agrees (encoded "FOO" ["V1"]) (.error (.unknownInstruction (txt "FOO"))) = true ∧
    agrees (encoded "LOAD" ["V10", "1"]) (.error (.badLiteral (txt "V10"))) = true ∧
    agrees (encoded "LOAD" ["V1", "1FF0"]) (.error (.badLiteral (txt "1FF0"))) = true ∧
    agrees (encoded "LOAD" ["V1", "ZZ"]) (.error (.badLiteral (txt "ZZ"))) = true := by
  decide

/-- R130: the printer's examples. -/
theorem test_printer :
    printInstr (.shr 0x1 0x2) = (txt "SHR", [txt "V1", txt "V2"]) ∧
    printInstr (.draw 0x1 0x2 0x3) = (txt "DRAW", [txt "V1", txt "V2", txt "0x03"]) ∧
    printInstr (.jump 0x204) = (txt "JUMP", [txt "0x204"]) ∧
    printInstr (.storeAll 0x2) = (txt "LOAD", [txt "I", txt "V2"]) := by
  decide

/-! ## Witnesses: concrete states and operands that meet the hypotheses of each statement, at the boundaries of its clauses -/

/-- `strict` with `pc` and `I`. -/
def strictAt (pc i : Word) : State := { strict with pc := pc, i := i }

/-- EncodeAfterDecode. -/
theorem witness_encode_after_decode : decodeWord 0x8FFE = some (.shl 0xF 0xF) := by decide

/-- IllegalWordsRaiseDecodeError: the empty machine at reset, and the last fetch address under `fault`. -/
theorem witness_illegal_word :
    (State.reset.status = .running ∧ State.reset.canFetch ∧ illegalWord State.reset.fetchWord.toNat) ∧
    ((strictAt 0x0FFE 0).status = .running ∧ (strictAt 0x0FFE 0).canFetch ∧
      illegalWord (strictAt 0x0FFE 0).fetchWord.toNat) := by
  decide

/-- Words of each class of the list, at its edges. -/
theorem witness_illegal_classes :
    ([0x0000, 0x0FFF, 0x5FFF, 0x9001, 0x8008, 0x8FFF, 0xE000, 0xF0FF] : List Nat).all
      (fun w => decide (illegalWord w)) = true := by
  decide

/-- Legal words next to them. -/
theorem witness_legal_neighbours :
    ([0x00E0, 0x00EE, 0x1000, 0x5FF0, 0x9000, 0x800E, 0xE09E, 0xF065] : List Nat).any
      (fun w => decide (illegalWord w)) = false := by
  decide

/-- AssembledBytesDecode. -/
theorem witness_assembled : assemble (txt "DRAW") [txt "V1", txt "V2", txt "0x03"] = .ok [0xD1, 0x23] := by rfl

/-- UnknownMnemonicsOnly: an unregistered and a registered mnemonic. -/
theorem witness_unknown_mnemonic :
    canonicalMnemonic (txt "FOO") = none ∧ canonicalMnemonic (txt "sknp") = some .skipNKey := by decide

/-- StepRunsDecodedInstruction and PlacedWordRuns: at reset, at the last fetch address under `fault`, above it under
`mask`. -/
theorem witness_fetch_decodes :
    (let s := State.reset.withFetchWord 16 0x6111
     s.status = .running ∧ s.canFetch ∧ decodeWord s.fetchWord = some (.loadImm 0x1 0x11)) ∧
    (let s := (strictAt 0x0FFE 0).withFetchWord 16 0x6111
     s.status = .running ∧ s.canFetch ∧ decodeWord s.fetchWord = some (.loadImm 0x1 0x11)) ∧
    (let s := State.withFetchWord { State.reset with pc := 0xFFFE } 16 0x6111
     s.status = .running ∧ s.canFetch ∧ decodeWord s.fetchWord = some (.loadImm 0x1 0x11)) := by
  decide

/-- OddPcRaisesMisaligned. -/
theorem witness_odd_pc :
    (strictAt 0xFFFF 0).status = .running ∧ (strictAt 0xFFFF 0).pc.getLsbD 0 = true := by decide

/-- OutOfRangeRaisesAddressRange: the first address out of range in each clause, and none of the clauses one below. -/
theorem witness_out_of_range :
    ((strictAt 0x1000 0).status = .running ∧ (strictAt 0x1000 0).pc.getLsbD 0 = false ∧
      (strictAt 0x1000 0).config.addrPolicy = .fault ∧ 0x0FFE < (strictAt 0x1000 0).pc.toNat) ∧
    (strictAt 0x0FFE 0).canFetch ∧
    0x0FFF < (strictAt 0 0x0FF2).i.toNat + ((0xF : Nibble).toNat - 1) ∧ (strictAt 0 0x0FF1).canAccess 15 ∧
      ¬(strictAt 0 0x0FF2).canAccess 15 ∧ (strictAt 0 0xFFFF).canAccess 0 ∧
    0x0FFF < (strictAt 0 0x0FFE).i.toNat + 2 ∧ (strictAt 0 0x0FFD).canAccess 3 ∧
    0x0FFF < (strictAt 0 0x0FF1).i.toNat + 15 ∧ (strictAt 0 0x0FF0).canAccess 16 := by
  decide

/-- The clauses of OutOfRangeRaisesAddressRange are met at once by one state: a one-byte sprite at 0x1000. -/
theorem witness_out_of_range_draw :
    (strictAt 0 0x1000).config.addrPolicy = .fault ∧ 0 < (0x1 : Nibble).toNat ∧
    0x0FFF < (strictAt 0 0x1000).i.toNat + ((0x1 : Nibble).toNat - 1) := by
  decide

/-- FailedIsTerminal: a failed machine, and a reset leaves the status. -/
theorem witness_failed :
    (State.reset.raise (.stackOverflow 0x0200)).status = .failed (.stackOverflow 0x0200) ∧
    after (act (.reset []) (State.reset.raise (.stackOverflow 0x0200))) (fun t => t.status) = some .running := by
  decide

/-- RaisingChangesOnlyStatus, and a witness of every disjunct of CausesOfFaults. -/
theorem witness_raising :
    after (step (facing { State.reset with pc := 0x0203 } 0)) (fun t => t.status) =
      some (.failed (.fetchMisaligned 0x0203)) ∧
    after (step (facing (strictAt 0x1000 0) 0)) (fun t => t.status) = some (.failed (.addressRange 0x1000 0x1000)) ∧
    after (step (facing State.reset 0x5121)) (fun t => t.status) = some (.failed (.decodeError 0x5121 0x0200)) ∧
    after (step (facing { State.reset with sp := 16 } 0x2200)) (fun t => t.status) =
      some (.failed (.stackOverflow 0x0200)) ∧
    after (step (facing State.reset 0x00EE)) (fun t => t.status) = some (.failed (.stackUnderflow 0x0200)) := by
  decide

/-- The last disjunct: the four instructions that reach memory through `I`. -/
theorem witness_raising_range :
    after (step (facing (strictAt 0x0200 0x0FFF) 0xD012)) (fun t => t.status) =
      some (.failed (.addressRange 0x1000 0x0200)) ∧
    after (step (facing (strictAt 0x0200 0x0FFE) 0xF033)) (fun t => t.status) =
      some (.failed (.addressRange 0x1000 0x0200)) ∧
    after (step (facing (strictAt 0x0200 0x0FF1) 0xF055)) (fun t => t.status) =
      some (.failed (.addressRange 0x1000 0x0200)) ∧
    after (step (facing (strictAt 0x0200 0x2000) 0xF065)) (fun t => t.status) =
      some (.failed (.addressRange 0x2000 0x0200)) := by
  decide

/-- CancelFallsBetweenSteps: cancelled before the first step and after one, and a first step that fails. -/
theorem witness_cancel :
    after (Host.Core.run Sys2Proof.core 0 State.reset) (fun t => t.status) = some .running ∧
    after (Host.Core.run Sys2Proof.core 1 (facing State.reset 0x6111)) (fun t => t.status) = some .running ∧
    after (Host.Core.run Sys2Proof.core 0 (facing State.reset 0x00EE)) (fun t => t.status) = some .running ∧
    after (step (facing State.reset 0x00EE)) (fun t => t.status) = some (.failed (.stackUnderflow 0x0200)) := by
  decide

/-- ResetLoadsImage, FirstStepAfterReset and LoadedMachineMeetsInvariant: the empty image and the longest one; their last byte is at 0xFFF. -/
theorem witness_image_lengths :
    ([] : List Byte).length ≤ 3584 ∧ (List.replicate 3584 0x00#8).length ≤ 3584 ∧
    0x200 + (List.replicate 3584 0x00#8).length = 0x1000 := by
  rw [List.length_replicate]; decide

/-- OversizeImageFailsToLoad: the shortest image that does not fit, and one that does. -/
theorem witness_oversize_image :
    3584 < (List.replicate 3585 0x00#8).length ∧ (List.replicate 3584 0x00#8).length ≤ 3584 := by
  rw [List.length_replicate, List.length_replicate]; decide

/-- StepKeepsInvariant, StepKeepsParameters: a step from a state that meets the invariant, pushing the last entry. -/
theorem witness_invariant_step :
    (facing { State.reset with sp := 15 } 0x2200).Inv ∧
    after (step (facing { State.reset with sp := 15 } 0x2200)) (fun t => (t.sp, t.config)) =
      some (0x10#8, defaultConfig) := by
  decide

/-- StepKeepsInvariant: a store through `I` with something in memory. -/
theorem witness_invariant_store :
    (facing { withRegs [(0x0, 254)] with i := 0x0300 } 0xF033).Inv ∧
    after (step (facing { withRegs [(0x0, 254)] with i := 0x0300 } 0xF033)) (fun t => decide t.Inv) = some true := by
  decide

/-- RunningCoreAlwaysSteps: also with a full stack. -/
theorem witness_running :
    State.Inv { State.reset with sp := 16 } ∧ State.status { State.reset with sp := 16 } = .running := by decide

/-- DisplayWriters: each of the two writes it. -/
theorem witness_display_writers :
    after (exec .clear { State.reset with disp := blankDisplay.set 0 0x80#8 }) (fun t => t.disp[0]) = some 0x00#8 ∧
    after (exec (.draw 0x0 0x0 0x1) State.reset) (fun t => t.disp[0]) = some 0xF0#8 ∧ State.reset.disp[0] = 0x00#8 := by
  decide

/-- StackWriters. -/
theorem witness_stack_writers :
    after (exec (.call 0x400) State.reset) (fun t => (t.sp, t.stack[0])) = some (0x01#8, 0x0202#16) ∧
    after (exec .ret { State.reset with sp := 1 }) (fun t => t.sp) = some 0x00#8 := by
  decide

/-- TimerWriters. -/
theorem witness_timer_writers :
    after (exec (.loadDT 0x1) (withRegs [(0x1, 0x05)])) (fun t => (t.dt, t.st)) = some (0x05#8, 0x00#8) ∧
    after (exec (.loadST 0x1) (withRegs [(0x1, 0x05)])) (fun t => (t.dt, t.st)) = some (0x00#8, 0x05#8) := by
  decide

/-- AddressRegisterWriters. -/
theorem witness_i_writers :
    after (exec (.loadI 0x001) State.reset) (fun t => t.i) = some 0x0001#16 ∧
    after (exec (.addI 0x1) (withRegs [(0x1, 0x05)])) (fun t => t.i) = some 0x0005#16 ∧
    after (exec (.loadFont 0x1) (withRegs [(0x1, 0x0F)])) (fun t => t.i) = some 0x004B#16 := by
  decide

/-- MemoryWriters. -/
theorem witness_memory_writers :
    after (exec (.loadBcd 0x1) { withRegs [(0x1, 0x05)] with i := 0x0300 }) (fun t => t.readByte 0x302) = some 0x05#8 ∧
    after (exec (.storeAll 0x0) { withRegs [(0xF, 0x05)] with i := 0x0300 }) (fun t => t.readByte 0x30F) = some 0x05#8 ∧
    State.reset.readByte 0x302 = 0x00#8 := by
  decide

/-- RegisterWriters: a result, a flag, and the bulk load. -/
theorem witness_register_writers :
    after (exec (.loadImm 0x3 0x07) State.reset) (fun t => t.reg 0x3) = some 0x07#8 ∧
    after (exec (.sub 0x0 0x1) State.reset) (fun t => t.reg 0xF) = some 0x01#8 ∧
    after (exec (.loadAll 0x0) State.reset) (fun t => t.reg 0x5) = some 0x20#8 := by
  decide

/-- DefaultAdvance: the advance, its wrap, and a fault. -/
theorem witness_default_advance :
    steersPc (.addI 0x1) = false ∧
    after (exec (.addI 0x1) { State.reset with pc := 0xFFFE }) (fun t => t.pc) = some 0x0000#16 ∧
    after (exec (.loadBcd 0x1) (strictAt 0x0200 0x0FFE)) (fun t => (t.pc, decide (t.status = .running))) =
      some (0x0200#16, false) := by
  decide

/-- ReturnPops: one live entry, all sixteen, none. -/
theorem witness_return :
    (0 < (0x01#8).toNat ∧ (0x01#8).toNat ≤ 16) ∧ (0 < (0x10#8).toNat ∧ (0x10#8).toNat ≤ 16) ∧ State.reset.sp = 0x00#8 ∧
    after (exec .ret { State.reset with sp := 16, stack := State.reset.stack.set 15 0x0444#16 })
      (fun t => (t.pc, t.sp)) = some (0x0444#16, 0x0F#8) := by
  decide

/-- CallPushes: none live, fifteen, sixteen. -/
theorem witness_call :
    State.reset.sp.toNat < 16 ∧ (State.sp { State.reset with sp := 15 }).toNat < 16 ∧
    16 ≤ (State.sp { State.reset with sp := 16 }).toNat := by
  decide

/-- RegisterSkips: each condition true and false at one state. -/
theorem witness_register_skips :
    State.reset.reg 0x0 = 0x00#8 ∧ State.reset.reg 0x0 ≠ 0x01#8 ∧ State.reset.reg 0x1 = State.reset.reg 0x2 ∧
    (withRegs [(0x1, 0x01)]).reg 0x1 ≠ (withRegs [(0x1, 0x01)]).reg 0x2 := by
  decide

/-- KeySkips: the last key down, a key up, and no key. -/
theorem witness_key_skips :
    State.keyDown { State.reset with input := keys 0x8000 } 0x0F = true ∧
    State.keyDown { State.reset with input := keys 0x8000 } 0x0E = false ∧
    State.keyDown { State.reset with input := keys 0xFFFF } 0x10 = false := by
  decide

/-- The flag clauses of the five arithmetic statements: `x` other than 15, `VF` as the second operand. -/
theorem witness_flag_clause :
    (0xE#4 : Nibble) ≠ 0xF#4 ∧
    after (exec (.addReg 0xE 0xF) (withRegs [(0xE, 0xFF), (0xF, 0x01)])) (fun t => (t.reg 0xE, t.reg 0xF)) =
      some (0x00#8, 0x01#8) := by
  decide

/-- DrawInvertsPixels: all of a sprite in range under `fault`, a sprite of no rows anywhere, any sprite under `mask`. -/
theorem witness_draw :
    (strictAt 0 0x0FFF).canAccess (0x1 : Nibble).toNat ∧ (strictAt 0 0x0FF1).canAccess (0xF : Nibble).toNat ∧
    (strictAt 0 0xFFFF).canAccess (0x0 : Nibble).toNat ∧
    State.canAccess { State.reset with i := 0xFFFF } (0xF : Nibble).toNat := by
  decide

/-- DrawInvertsPixels: a pixel it covers and sets, one it covers and clears, in the two cells of a split row. -/
theorem witness_draw_pixels :
    spriteCovers [0xFF] 60 31 63 31 = true ∧ spriteCovers [0xFF] 60 31 3 31 = true ∧
    spriteCovers [0xFF] 60 31 4 31 = false ∧ spriteCovers [0xFF] 60 31 63 0 = false ∧
    after (exec (.draw 0x0 0x1 0x1) ((withBytes 0x300 [0xFF]).setReg 0x0 60 |>.setReg 0x1 31))
      (fun t => (pixel t.disp 63 31, pixel t.disp 3 31, pixel t.disp 4 31)) = some (true, true, false) := by
  decide

/-- DrawingTwiceRestores: one row, and fifteen rows of which only the last has a bit. -/
theorem witness_draw_twice :
    (([0xFF] : List Byte).length ≤ 15 ∧ ∃ b ∈ ([0xFF] : List Byte), b ≠ 0x00#8) ∧
    ((List.replicate 14 0x00#8 ++ [0x01#8]).length ≤ 15 ∧ ∃ b ∈ List.replicate 14 0x00#8 ++ [0x01#8], b ≠ 0x00#8) := by
  decide

/-- KeyWait: an event, no event, and a step that holds. -/
theorem witness_key_wait :
    State.input { State.reset with input := event 0xF } = event 0xF ∧ (event 0xF).keyEvent = some 0xF#4 ∧
    State.reset.input.keyEvent = none ∧
    (let s := facing State.reset 0xF20A
     s.status = .running ∧ s.canFetch ∧ decodeWord s.fetchWord = some (.loadKey 0x2) ∧ s.nextInput.keyEvent = none) := by
  decide

/-- BcdStoresDigits, BulkStore, BulkLoad: the last address whose bytes are in range under `fault`, any under `mask`, and the
first one out of range. -/
theorem witness_transfers :
    (strictAt 0 0x0FFD).canAccess 3 ∧ (strictAt 0 0x0FF0).canAccess 16 ∧
    State.canAccess { State.reset with i := 0xFFFF } 16 ∧
    (strictAt 0 0x0FFE).config.addrPolicy = .fault ∧ 0x0FFF < (strictAt 0 0x0FFE).i.toNat + 2 ∧
    0x0FFF < (strictAt 0 0x0FF1).i.toNat + 15 := by
  decide

end Sys2Proof.Tests
end

section
/-! The parameters `ADDR_POLICY` and `FONT` along a step (00_scope R6). -/

namespace Sys2Proof.Machine

/-- A guarded data access keeps the parameters when the access itself does: the other outcome, `raise`, writes only
`status` (60_exceptions R244). -/
theorem State.guardData_config (s done : State) (count : Nat) (h : done.config = s.config) :
    (s.guardData count done).config = s.config := by
  rcases s.guardData_cases done count with e | ⟨-, -, -, e⟩
  · rw [e, h]
  · rw [e, State.raise_config]

/-- RETURN: the pop, or the underflow that it raises. -/
theorem execRet_config (s t : State) (h : execRet s = .next t) : t.config = s.config := by
  unfold execRet at h
  split at h
  · cases h; rfl
  · split at h <;> cases h; rfl

/-- CALL: the push, or the overflow that it raises. -/
theorem execCall_config (nnn : Addr12) (s t : State) (h : execCall nnn s = .next t) : t.config = s.config := by
  unfold execCall at h
  split at h <;> cases h <;> rfl

/-- The key wait: the key taken, or the hold. -/
theorem execLoadKey_config (x : Nibble) (s t : State) (h : execLoadKey x s = .next t) : t.config = s.config := by
  cases h
  cases s.input.keyEvent <;> rfl

/-- No instruction writes the parameters. Beside the updates in one line, RETURN, CALL and the key wait have two outcomes, and
the four instructions that access memory through `I` are guarded. -/
theorem exec_config (i : Instr) (s t : State) (h : exec i s = .next t) : t.config = s.config := by
  cases i
  case ret => exact execRet_config s t h
  case call nnn => exact execCall_config nnn s t h
  case loadKey x => exact execLoadKey_config x s t h
  case draw => cases h; exact s.guardData_config _ _ rfl
  case loadBcd => cases h; exact s.guardData_config _ _ (s.writeBytes_config _ _)
  case storeAll => cases h; exact s.guardData_config _ _ (s.writeBytes_config _ _)
  case loadAll => cases h; exact s.guardData_config _ _ rfl
  all_goals (cases h; rfl)

/-- Settles O25: a step takes its inputs in, then executes an instruction or raises the fetch's cause, and none of these
writes the parameters. -/
theorem stepKeepsParameters : Obligations.StepKeepsParameters := by
  intro s t h
  obtain ⟨-, ⟨i, -, hexec⟩ | ⟨c, -, rfl⟩⟩ := step_next s t h
  · exact (exec_config i _ t hexec).trans s.beginStep_config
  · rw [State.raise_config, State.beginStep_config]

end Sys2Proof.Machine
end

section
/-! What an instruction may write: its possible next states, sorted by the piece of state they change (10_state R20 to R44). -/

namespace Sys2Proof.Machine

/-- `Effect i s t`: the instruction `i` may take `s` to `t`. Each constructor is one kind of write with the instructions that
make it, or the raise of a fault; the values written are left open where no rule about writers depends on them. -/
inductive Effect : Instr → State → State → Prop where
  /-- A fault is raised: only the status is written (60_exceptions R244). -/
  | raised {i s} (c : Cause) : Effect i s (s.raise c)
  /-- The key wait without an event (46_fgroup R222). -/
  | held {s} (x : Nibble) : Effect (.loadKey x) s s
  /-- A control transfer that writes `pc` alone: the jumps and the skips (10_state R27). -/
  | transferred {i s} (w : Word) (hi : steersPc i = true) : Effect i s (s.jumpTo w)
  /-- The pop of RETURN (40_flow R142). -/
  | popped {s : State} (hsp : s.sp ≠ 0x00#8) (h : (s.sp - 1#8).toNat < 16) :
      Effect .ret s ({ s with sp := s.sp - 1#8 }.jumpTo s.stack[(s.sp - 1#8).toNat])
  /-- The push of CALL (40_flow R146). -/
  | pushed {s : State} (nnn : Addr12) (h : s.sp.toNat < 16) :
      Effect (.call nnn) s
        ({ s with stack := s.stack.set s.sp.toNat (s.pc + 2#16), sp := s.sp + 1#8 }.jumpTo (nnn.zeroExtend 16))
  /-- A result in the destination register (10_state R21). -/
  | result {i s} {x : Nibble} (b : Byte) (hi : destReg i = some x) : Effect i s (s.setReg x b).advance
  /-- A flag in `VF`, then the result (10_state R22, R24). -/
  | flagged {i s} {x : Nibble} (f : Bool) (b : Byte) (hi : destReg i = some x) (hf : writesFlag i = true) :
      Effect i s (s.writeFlagged x f b)
  /-- The bulk load (46_fgroup R236). -/
  | loaded {s : State} (x : Nibble) (v : Vector Byte 16) : Effect (.loadAll x) s { s with v := v }.advance
  /-- `LOAD I, nnn` (43_index_random R180). -/
  | indexLoaded {s : State} (nnn : Addr12) (w : Word) : Effect (.loadI nnn) s { s with i := w }.advance
  /-- `ADD I, Vx` (46_fgroup R228). -/
  | indexAdded {s : State} (x : Nibble) (w : Word) : Effect (.addI x) s { s with i := w }.advance
  /-- `LOAD F, Vx` (46_fgroup R230). -/
  | glyphAddressed {s : State} (x : Nibble) (w : Word) : Effect (.loadFont x) s { s with i := w }.advance
  /-- `LOAD DT, Vx` (46_fgroup R224). -/
  | delaySet {s : State} (x : Nibble) (b : Byte) : Effect (.loadDT x) s { s with dt := b }.advance
  /-- `LOAD ST, Vx` (46_fgroup R226). -/
  | soundSet {s : State} (x : Nibble) (b : Byte) : Effect (.loadST x) s { s with st := b }.advance
  /-- The BCD store and the bulk store (20_memory R66). -/
  | stored {i s} (a : Nat) (bs : List Byte) (hi : (∃ x, i = .loadBcd x) ∨ ∃ x, i = .storeAll x) :
      Effect i s (s.writeBytes a bs).advance
  /-- CLEAR (40_flow R140). -/
  | cleared {s : State} : Effect .clear s { s with disp := blankDisplay }.advance
  /-- DRAW writes the display, and the collision into `VF` (44_draw R199). -/
  | drawn {s : State} (x y n : Nibble) (d : Display) (f : Bool) :
      Effect (.draw x y n) s ({ s with disp := d }.setFlag f).advance

/-- A guard adds only the raise to what an access may do. -/
theorem Effect.guardData {i : Instr} {s done : State} (count : Nat) (h : Effect i s done) :
    Effect i s (s.guardData count done) := by
  rcases s.guardData_cases done count with e | ⟨-, -, -, e⟩
  · rwa [e]
  · rw [e]; exact .raised _

/-- RETURN pops or raises the underflow; its third branch answers no next state. -/
theorem execRet_effect {s t : State} (h : execRet s = .next t) : Effect .ret s t := by
  unfold execRet at h
  split at h
  · cases h; exact .raised _
  · next hsp => split at h <;> cases h; exact .popped hsp _

/-- CALL pushes or raises the overflow. -/
theorem execCall_effect {nnn : Addr12} {s t : State} (h : execCall nnn s = .next t) : Effect (.call nnn) s t := by
  unfold execCall at h
  split at h <;> cases h
  · next hsp => exact .pushed nnn hsp
  · exact .raised _

/-- The key wait takes the key of an event or holds. -/
theorem execLoadKey_effect {x : Nibble} {s t : State} (h : execLoadKey x s = .next t) : Effect (.loadKey x) s t := by
  cases h
  cases s.input.keyEvent with
  | none => exact .held x
  | some k => exact .result _ rfl

/-- All that an instruction answering a next state can have written. -/
theorem exec_effect {i : Instr} {s t : State} (h : exec i s = .next t) : Effect i s t := by
  cases i
  case ret => exact execRet_effect h
  case call => exact execCall_effect h
  case loadKey => exact execLoadKey_effect h
  all_goals cases h
  case jump | jumpV0 | skipEqImm | skipNeImm | skipEqReg | skipNeReg | skipKey | skipNKey => exact .transferred _ rfl
  case loadImm | loadReg | addImm | orReg | andReg | xorReg | random | loadFromDT => exact .result _ rfl
  case addReg | sub | shr | subn | shl => exact .flagged _ _ rfl rfl
  case loadI => exact .indexLoaded _ _
  case addI => exact .indexAdded _ _
  case loadFont => exact .glyphAddressed _ _
  case loadDT => exact .delaySet _ _
  case loadST => exact .soundSet _ _
  case clear => exact .cleared
  case draw => exact .guardData _ (.drawn _ _ _ _ _)
  case loadBcd x => exact .guardData _ (.stored _ _ (.inl ⟨x, rfl⟩))
  case storeAll x => exact .guardData _ (.stored _ _ (.inr ⟨x, rfl⟩))
  case loadAll => exact .guardData _ (.loaded _ _)

/-! ## Who writes what -/

/-- Settles O27: CLEAR and DRAW are the only effects on the display. -/
theorem displayWriters : Obligations.DisplayWriters := by
  intro i s t h hdisp
  cases exec_effect h with
  | cleared => exact .inl rfl
  | drawn x y n => exact .inr ⟨x, y, n, rfl⟩
  | stored a bs => exact absurd (s.writeBytes_disp a bs) hdisp
  | _ => exact absurd rfl hdisp

/-- Settles O28: the pop writes `SP`, the push writes `SP` and the stack. -/
theorem stackWriters : Obligations.StackWriters := by
  intro i s t h
  cases exec_effect h with
  | popped => exact ⟨fun _ => .inl rfl, absurd rfl⟩
  | pushed nnn => exact ⟨fun _ => .inr ⟨nnn, rfl⟩, fun _ => ⟨nnn, rfl⟩⟩
  | stored a bs => exact ⟨absurd (s.writeBytes_sp a bs), absurd (s.writeBytes_stack a bs)⟩
  | _ => exact ⟨absurd rfl, absurd rfl⟩

/-- Settles O29: each timer is written by its own load. -/
theorem timerWriters : Obligations.TimerWriters := by
  intro i s t h
  cases exec_effect h with
  | delaySet x => exact ⟨fun _ => ⟨x, rfl⟩, absurd rfl⟩
  | soundSet x => exact ⟨absurd rfl, fun _ => ⟨x, rfl⟩⟩
  | stored a bs => exact ⟨absurd (s.writeBytes_dt a bs), absurd (s.writeBytes_st a bs)⟩
  | _ => exact ⟨absurd rfl, absurd rfl⟩

/-- Settles O30: `I` is written by its load, its addition and the glyph address. -/
theorem addressRegisterWriters : Obligations.AddressRegisterWriters := by
  intro i s t h hi
  cases exec_effect h with
  | indexLoaded nnn => exact .inl ⟨nnn, rfl⟩
  | indexAdded x => exact .inr (.inl ⟨x, rfl⟩)
  | glyphAddressed x => exact .inr (.inr ⟨x, rfl⟩)
  | stored a bs => exact absurd (s.writeBytes_i a bs) hi
  | _ => exact absurd rfl hi

/-- A write to `V[x]` is seen in no other register. -/
theorem State.eq_of_reg_setReg_ne {s : State} {x r : Nibble} {b : Byte} (h : (s.setReg x b).reg r ≠ s.reg r) : r = x := by
  by_contra hne
  exact h (by rw [State.reg_setReg, if_neg hne])

/-- Settles O32: a register written is the destination, `VF` beside it or under DRAW, or one of the bulk load's. -/
theorem registerWriters : Obligations.RegisterWriters := by
  intro i s t r h hreg
  cases exec_effect h with
  | result b hx =>
    rw [State.reg_advance] at hreg
    exact .inl (State.eq_of_reg_setReg_ne hreg ▸ hx)
  | flagged f b hx hf =>
    rw [State.reg_writeFlagged] at hreg
    split_ifs at hreg with hrx hrf
    · exact .inl (hrx ▸ hx)
    · exact .inr (.inl ⟨hrf, hf⟩)
    · exact absurd rfl hreg
  | drawn => exact .inr (.inl ⟨State.eq_of_reg_setReg_ne hreg, rfl⟩)
  | loaded x => exact .inr (.inr ⟨x, rfl⟩)
  | stored a bs => exact absurd (s.reg_writeBytes a bs r) hreg
  | _ => exact absurd rfl hreg

/-- Every effect outside the control transfers ends in the default advance, or is a raise. -/
theorem Effect.pc_of_not_steersPc {i : Instr} {s t : State} (h : Effect i s t) (hi : steersPc i = false) :
    t.pc = s.pc + 2#16 ∨ ∃ c, t = s.raise c := by
  cases h with
  | raised c => exact .inr ⟨c, rfl⟩
  | transferred w hw => simp [hi] at hw
  | held | popped | pushed => cases hi
  | stored a bs => exact .inl (congrArg (· + 2#16) (s.writeBytes_pc a bs))
  | _ => exact .inl rfl

/-- Settles O33: the default advance in numbers, and the raise, which keeps `pc`. -/
theorem defaultAdvance : Obligations.DefaultAdvance := by
  intro i s t hi h
  obtain hpc | ⟨c, rfl⟩ := (exec_effect h).pc_of_not_steersPc hi
  · exact .inl (by rw [hpc, BitVec.toNat_add]; rfl)
  · exact .inr ⟨rfl, c, rfl⟩

end Sys2Proof.Machine
end

section
/-! The invariant along a step (10_state R31, R38; 40_flow R142). -/

namespace Sys2Proof.Machine

/-! ## The instruction that a step runs -/

/-- A fetch is possible exactly when its two checks on `pc` pass (60_exceptions R252). -/
theorem State.canFetch_iff (s : State) :
    s.canFetch ↔ s.pc.getLsbD 0 = false ∧ s.addressFault s.pc.toNat 2 = none := by
  have hrange : s.pc.toNat ≤ 0x0FFE ↔ s.pc.toNat + (2 - 1) ≤ 0x0FFF := by omega
  simp [State.canFetch, State.addressFault_eq_none, hrange]

/-- A running core that can fetch executes the instruction of the word at `pc`. -/
theorem State.coreStep_of_decodeWord {s : State} {i : Instr} (hs : s.status = .running) (hfetch : s.canFetch)
    (hi : decodeWord s.fetchWord = some i) : s.coreStep = exec i s := by
  obtain ⟨heven, hrange⟩ := s.canFetch_iff.mp hfetch
  rw [s.coreStep_running hs, (s.fetchInstr_ok i).mpr ⟨heven, hrange, hi⟩]

/-- Settles O9: the inputs and ticks taken in first change neither the fetch nor its checks. -/
theorem stepRunsDecodedInstruction : Obligations.StepRunsDecodedInstruction := by
  intro s i hs hfetch hi
  have hstep : step s = exec i s.beginStep := State.coreStep_of_decodeWord (s := s.beginStep) hs hfetch hi
  exact ⟨hstep, rfl, timerAfter_toNat _ _, timerAfter_toNat _ _, rfl, rfl, rfl⟩

/-! ## Steps keep the invariant -/

/-- The invariant speaks of memory, the parameters, `SP` and the stack alone. -/
theorem State.Inv.congr {s t : State} (h : s.Inv) (hmem : t.mem = s.mem) (hconfig : t.config = s.config)
    (hsp : t.sp = s.sp) (hstack : t.stack = s.stack) : t.Inv := by
  unfold State.Inv State.memOk State.spOk State.returnsEven at *
  rwa [hmem, hconfig, hsp, hstack]

/-- The default advance keeps the parity of an address. -/
theorem getLsbD_zero_add_two (w : Word) : (w + 2#16).getLsbD 0 = w.getLsbD 0 := by
  rw [BitVec.getLsbD_add (by decide)]
  simp

/-- A pop leaves fewer return addresses live, each an old one. -/
theorem State.Inv.pop {s : State} (h : s.Inv) (hsp : s.sp ≠ 0x00#8) (w : Word) :
    ({ s with sp := s.sp - 1#8 }.jumpTo w).Inv := by
  obtain ⟨hmem, hle, heven⟩ := h
  have hlt : (s.sp - 1#8).toNat < s.sp.toNat := by bv_omega
  exact ⟨hmem, hlt.le.trans hle, fun k hk hlive => heven k hk (hlive.trans hlt)⟩

/-- A push at an even `pc` adds one return address, which is even. -/
theorem State.Inv.push {s : State} (h : s.Inv) (hpc : s.pc.getLsbD 0 = false) (hsp : s.sp.toNat < 16) (w : Word) :
    ({ s with stack := s.stack.set s.sp.toNat (s.pc + 2#16), sp := s.sp + 1#8 }.jumpTo w).Inv := by
  obtain ⟨hmem, -, heven⟩ := h
  have hsucc : (s.sp + 1#8).toNat = s.sp.toNat + 1 := by bv_omega
  refine ⟨hmem, hsucc.trans_le hsp, fun k hk hlive => ?_⟩
  show ((s.stack.set s.sp.toNat (s.pc + 2#16))[k]).getLsbD 0 = false
  rw [Vector.getElem_set]
  split
  · exact (getLsbD_zero_add_two s.pc).trans hpc
  · next hne => exact heven k hk (by have : k < s.sp.toNat + 1 := hsucc ▸ hlive; omega)

/-- An instruction at an even `pc` keeps the invariant: of all effects only the pop, the push and the stores touch what it
speaks of. -/
theorem Effect.inv {i : Instr} {s t : State} (h : Effect i s t) (hpc : s.pc.getLsbD 0 = false) (hs : s.Inv) : t.Inv := by
  cases h with
  | popped hsp => exact hs.pop hsp _
  | pushed nnn hsp => exact hs.push hpc hsp _
  | stored a bs =>
    obtain ⟨hmem, hsp, heven⟩ := hs
    refine ⟨s.wf_writeBytes a bs hmem, ?_, ?_⟩
    · simpa [State.spOk] using hsp
    · simpa [State.returnsEven] using heven
  | _ => exact hs.congr rfl rfl rfl rfl

/-- Settles O22: the inputs taken in and a raise touch nothing the invariant speaks of, and an instruction is only executed
at an even `pc`. -/
theorem stepKeepsInvariant : Obligations.StepKeepsInvariant := by
  intro s t hs h
  have hbegin : s.beginStep.Inv := hs.congr rfl rfl rfl rfl
  obtain ⟨-, ⟨i, hfetch, hexec⟩ | ⟨c, -, rfl⟩⟩ := step_next s t h
  · have heven := ((s.beginStep.fetchInstr_ok i).mp hfetch).1
    exact (exec_effect hexec).inv heven hbegin
  · exact hbegin.congr rfl rfl rfl rfl

/-- With a legal `SP` every instruction answers a next state: RETURN alone could stop, on a stack entry that does not exist. -/
theorem exec_next_of_spOk (i : Instr) {s : State} (hsp : s.spOk) : ∃ t, exec i s = .next t := by
  cases i
  case ret =>
    by_cases hzero : s.sp = 0x00#8
    · exact ⟨_, if_pos hzero⟩
    · have hlt : (s.sp - 1#8).toNat < 16 := by bv_omega
      exact ⟨_, (if_neg hzero).trans (dif_pos hlt)⟩
  case call =>
    by_cases hlt : s.sp.toNat < 16
    · exact ⟨_, dif_pos hlt⟩
    · exact ⟨_, dif_neg hlt⟩
  all_goals exact ⟨_, rfl⟩

/-- Settles O26: a running core executes what it fetched, or raises the fetch's cause. -/
theorem runningCoreAlwaysSteps : Obligations.RunningCoreAlwaysSteps := by
  rintro s ⟨-, hsp, -⟩ hs
  show ∃ t, s.beginStep.coreStep = .next t
  rw [s.beginStep.coreStep_running hs]
  cases s.beginStep.fetchInstr with
  | ok i => exact exec_next_of_spOk i hsp
  | error c => exact ⟨_, rfl⟩

/-! ## The reset state -/

/-- Settles O23: no cell is listed and no return address is live. -/
theorem resetMeetsInvariant : Obligations.ResetMeetsInvariant :=
  ⟨Memory.wf_nil _, by decide, fun _ _ hlive => absurd hlive (Nat.not_lt_zero _)⟩

/-- No pixel of a blank display is set. -/
theorem pixel_blankDisplay (px py : Nat) : pixel blankDisplay px py = false := by
  rw [pixel, dispByte_blank, BitVec.getLsbD_zero]

/-- Every address in range reads at reset as its unlisted byte. -/
theorem readByte_reset {a : Nat} (h : a < 4096) : State.reset.readByte a = unlistedByte State.reset.config a := by
  have hea : ea a = a := Nat.mod_eq_of_lt h
  rw [State.readByte, hea]
  rfl

/-- Settles O18: the fields as tabulated; registers, stack and display are replicated zeros, and memory reads as unlisted. -/
theorem resetValues : Obligations.ResetValues := by
  refine ⟨rfl, rfl, rfl, rfl, rfl, rfl, rfl, fun r => ?_, fun k h => ?_, pixel_blankDisplay, fun a h => ?_, fun a h h' => ?_⟩
  · exact Vector.getElem_replicate _
  · exact Vector.getElem_replicate _
  · rw [readByte_reset (by omega), unlistedByte, dif_pos h]
  · rw [readByte_reset h', unlistedByte, dif_neg (by omega)]

end Sys2Proof.Machine
end

section
/-! Stores and what the next fetch and later reads see of them (20_memory R64, R66, R75). -/

namespace Sys2Proof

/-- The bytes of a word, put together again, are the word. -/
@[simp] theorem wordOfBytes_extractLsb' (w : Word) : wordOfBytes (w.extractLsb' 8 8) (w.extractLsb' 0 8) = w := by
  rw [wordOfBytes, BitVec.extractLsb'_append_extractLsb'_eq_extractLsb' (by rfl)]
  exact BitVec.extractLsb'_eq_self

end Sys2Proof

namespace Sys2Proof.Machine

/-- A running core that can fetch raises `DecodeError` on an illegal word at `pc` (60_exceptions R246). -/
theorem State.coreStep_of_decodeWord_eq_none {s : State} (hs : s.status = .running) (hfetch : s.canFetch)
    (hw : decodeWord s.fetchWord = none) : s.coreStep = .next (s.raise (.decodeError s.fetchWord s.pc)) := by
  obtain ⟨heven, hrange⟩ := s.canFetch_iff.mp hfetch
  have hfault : s.fetchInstr = .error (.decodeError s.fetchWord s.pc) := by
    rw [State.fetchInstr_eq, heven, hrange, hw]
    rfl
  rw [s.coreStep_running hs, hfault]

/-- The inputs and ticks that a step takes in first change nothing of this. -/
theorem step_of_decodeWord_eq_none {s : State} (hs : s.status = .running) (hfetch : s.canFetch)
    (hw : decodeWord s.fetchWord = none) :
    step s = .next (s.beginStep.raise (.decodeError s.fetchWord s.pc)) :=
  State.coreStep_of_decodeWord_eq_none (s := s.beginStep) hs hfetch hw

/-! ## A word stored where the next step fetches: only memory is written -/

@[simp] theorem State.withFetchWord_pc (s : State) (nbits w : Nat) : (s.withFetchWord nbits w).pc = s.pc :=
  s.writeBytes_pc _ _

@[simp] theorem State.withFetchWord_status (s : State) (nbits w : Nat) : (s.withFetchWord nbits w).status = s.status :=
  s.writeBytes_status _ _

@[simp] theorem State.withFetchWord_config (s : State) (nbits w : Nat) : (s.withFetchWord nbits w).config = s.config :=
  s.writeBytes_config _ _

/-- A word of 16 bits is placed as its two bytes, high byte first (20_memory R64). -/
theorem State.withFetchWord_toNat (s : State) (w : Word) :
    s.withFetchWord 16 w.toNat = s.writeBytes s.pc.toNat (bytesOfWord w) := by
  rw [State.withFetchWord, State.placeWord, Nat.mod_eq_of_lt w.isLt, BitVec.ofNat_toNat, BitVec.setWidth_eq]

/-- The fetch answers the word stored at `pc`. -/
theorem State.fetchWord_withFetchWord (s : State) (w : Word) : (s.withFetchWord 16 w.toNat).fetchWord = w := by
  have hlen : (bytesOfWord w).length = 2 := rfl
  have hhi : (s.writeBytes s.pc.toNat (bytesOfWord w)).readByte s.pc.toNat = w.extractLsb' 8 8 :=
    s.readByte_writeBytes_same s.pc.toNat 0 (bytesOfWord w) (by omega) (by omega)
  have hlo : (s.writeBytes s.pc.toNat (bytesOfWord w)).readByte (s.pc.toNat + 1) = w.extractLsb' 0 8 :=
    s.readByte_writeBytes_same s.pc.toNat 1 (bytesOfWord w) (by omega) (by omega)
  rw [State.withFetchWord_toNat, State.fetchWord, State.writeBytes_pc, hhi, hlo, wordOfBytes_extractLsb']

/-- Settles O10: the store leaves `pc`, the parameters and the status alone, so the core fetches, and the word it fetches
is `w`. -/
theorem placedWordRuns : Obligations.PlacedWordRuns := by
  intro s w hs hfetch
  have hstatus : (s.withFetchWord 16 w.toNat).status = .running := (s.withFetchWord_status _ _).trans hs
  have hcan : (s.withFetchWord 16 w.toNat).canFetch := by
    rwa [State.canFetch, State.withFetchWord_pc, State.withFetchWord_config]
  have hword : (s.withFetchWord 16 w.toNat).fetchWord = w := s.fetchWord_withFetchWord w
  cases hw : decodeWord w with
  | some i => exact (stepRunsDecodedInstruction _ i hstatus hcan ((congrArg decodeWord hword).trans hw)).1
  | none => rw [step_of_decodeWord_eq_none hstatus hcan ((congrArg decodeWord hword).trans hw), hword, State.withFetchWord_pc]

/-! ## Who writes memory -/

/-- Settles O31: the two stores are the only effects on memory; after any other, memory and the parameters are the old
ones. -/
theorem memoryWriters : Obligations.MemoryWriters := by
  intro i s t a h hread
  cases exec_effect h with
  | stored base bs hi => exact hi
  | _ => exact absurd rfl hread

end Sys2Proof.Machine
end

section
/-! Words and instructions: the decoder and the encoder undo each other, and the illegal words (30_encoding R98 to R104, R129). -/

namespace Sys2Proof

/-! ## Decoding what was encoded -/

/-- The decoder undoes the encoder: the fields of a packed word are the operands, and the fixed ones select the row. -/
@[simp] theorem decodeWord_encode (i : Instr) : decodeWord (encode i) = some i := by
  cases i with
  | clear => rfl
  | ret => rfl
  | _ => simp [encode, decodeWord, decodeClass8, decodeClassE, decodeClassF]

/-- A legal word's two bytes decode to its instruction and leave what follows. -/
theorem decode_bytesOfWord_append {w : Word} {i : Instr} (hw : decodeWord w = some i) (rest : List Byte) :
    decode (bytesOfWord w ++ rest) = .ok (i, rest) := by
  simp [bytesOfWord, decode, hw]

/-- Settles O3: the two bytes are put together to the encoded word again, and that word decodes to its instruction. -/
theorem decodeAfterEncode : Obligations.DecodeAfterEncode := fun i rest =>
  decode_bytesOfWord_append (decodeWord_encode i) rest

/-! ## Encoding what was decoded -/

/-- A word is its class and its address field. -/
theorem packA_of_fields {w : Word} {op : Nibble} (hop : opField w = op) : packA op (nnnField w) = w := by
  subst hop
  rw [packA, opField, nnnField, BitVec.extractLsb'_append_extractLsb'_eq_extractLsb' (by rfl)]
  exact BitVec.extractLsb'_eq_self

/-- A word is its class, its second nibble and its bottom byte. -/
theorem packXK_of_fields {w : Word} {op : Nibble} {kk : Byte} (hop : opField w = op) (hkk : kkField w = kk) :
    packXK op (xField w) kk = w := by
  subst hop hkk
  rw [packXK, opField, xField, kkField, BitVec.extractLsb'_append_extractLsb'_eq_extractLsb' (by rfl),
    BitVec.extractLsb'_append_extractLsb'_eq_extractLsb' (by rfl)]
  exact BitVec.extractLsb'_eq_self

/-- A word is its four nibbles. -/
theorem packXYN_of_fields {w : Word} {op n : Nibble} (hop : opField w = op) (hn : nField w = n) :
    packXYN op (xField w) (yField w) n = w := by
  subst hop hn
  rw [packXYN, opField, xField, yField, nField, BitVec.extractLsb'_append_extractLsb'_eq_extractLsb' (by rfl),
    BitVec.extractLsb'_append_extractLsb'_eq_extractLsb' (by rfl),
    BitVec.extractLsb'_append_extractLsb'_eq_extractLsb' (by rfl)]
  exact BitVec.extractLsb'_eq_self

theorem encode_of_decodeClass0 {w : Word} {i : Instr} (h : decodeClass0 w = some i) : encode i = w := by
  unfold decodeClass0 at h
  split_ifs at h with hclear hret
  · cases h; exact hclear.symm
  · cases h; exact hret.symm

/-! In the classes with a sub-opcode, `hop` and the sub-opcode matched are the fixed fields of the row. -/

theorem encode_of_decodeClass8 {w : Word} {i : Instr} (hop : opField w = 0x8#4) (h : decodeClass8 w = some i) :
    encode i = w := by
  unfold decodeClass8 at h
  split at h <;> cases h <;> exact packXYN_of_fields hop ‹_›

theorem encode_of_decodeClassE {w : Word} {i : Instr} (hop : opField w = 0xE#4) (h : decodeClassE w = some i) :
    encode i = w := by
  unfold decodeClassE at h
  split at h <;> cases h <;> exact packXK_of_fields hop ‹_›

theorem encode_of_decodeClassF {w : Word} {i : Instr} (hop : opField w = 0xF#4) (h : decodeClassF w = some i) :
    encode i = w := by
  unfold decodeClassF at h
  split at h <;> cases h <;> exact packXK_of_fields hop ‹_›

/-- Settles O4: class by class, the fixed fields of the row and the operands read from the word are the word. -/
theorem encodeAfterDecode : Obligations.EncodeAfterDecode := by
  intro w i h
  unfold decodeWord at h
  split at h
  case h_1 => exact encode_of_decodeClass0 h
  case h_9 hop => exact encode_of_decodeClass8 hop h
  case h_15 hop => exact encode_of_decodeClassE hop h
  case h_16 =>
    have hop : opField w = 0xF#4 := by simp only [imp_false] at *; bv_omega
    exact encode_of_decodeClassF hop h
  case h_6 hop | h_10 hop =>
    split_ifs at h with hn
    cases h
    exact packXYN_of_fields hop hn
  case h_14 hop => cases h; exact packXYN_of_fields hop rfl
  case h_2 hop | h_3 hop | h_11 hop | h_12 hop => cases h; exact packA_of_fields hop
  case h_4 hop | h_5 hop | h_7 hop | h_8 hop | h_13 hop => cases h; exact packXK_of_fields hop rfl

/-! ## The illegal words -/

theorem toNat_opField (w : Word) : (opField w).toNat = w.toNat / 4096 := by
  rw [opField, BitVec.extractLsb'_toNat, Nat.shiftRight_eq_div_pow]
  exact Nat.mod_eq_of_lt (by omega)

theorem toNat_nField (w : Word) : (nField w).toNat = w.toNat % 16 := by
  rw [nField, BitVec.extractLsb'_toNat, Nat.shiftRight_zero]

theorem toNat_kkField (w : Word) : (kkField w).toNat = w.toNat % 256 := by
  rw [kkField, BitVec.extractLsb'_toNat, Nat.shiftRight_zero]

/-! What each class's own decoder rejects: the words with no branch of their own. -/

theorem decodeClass0_eq_none (w : Word) : decodeClass0 w = none ↔ w.toNat ≠ 0x00E0 ∧ w.toNat ≠ 0x00EE := by
  unfold decodeClass0
  split_ifs with hclear hret
  · simp [hclear]
  · simp [hret]
  · simpa [BitVec.toNat_eq] using And.intro hclear hret

theorem decodeClass8_eq_none (w : Word) :
    decodeClass8 w = none ↔ (nField w).toNat ∈ [0x8, 0x9, 0xA, 0xB, 0xC, 0xD, 0xF] := by
  unfold decodeClass8
  split
  case h_10 =>
    have hn : (nField w).toNat ∈ [0x8, 0x9, 0xA, 0xB, 0xC, 0xD, 0xF] := by
      simp only [imp_false, List.mem_cons, List.not_mem_nil] at *
      bv_omega
    simp [hn]
  all_goals simp [*]

theorem decodeClassE_eq_none (w : Word) : decodeClassE w = none ↔ (kkField w).toNat ∉ [0x9E, 0xA1] := by
  unfold decodeClassE
  split
  case h_3 h9E hA1 => simpa [BitVec.toNat_eq] using And.intro h9E hA1
  all_goals simp [*]

theorem decodeClassF_eq_none (w : Word) :
    decodeClassF w = none ↔ (kkField w).toNat ∉ [0x07, 0x0A, 0x15, 0x18, 0x1E, 0x29, 0x33, 0x55, 0x65] := by
  unfold decodeClassF
  split
  case h_10 => simp_all [BitVec.toNat_eq]
  all_goals simp [*]

/-- The decoder rejects the listed words and no others: of each class, those that the class's own decoder rejects (R104). -/
theorem decodeWord_eq_none (w : Word) : decodeWord w = none ↔ Machine.illegalWord w.toNat := by
  unfold Machine.illegalWord
  rw [← toNat_opField, ← toNat_nField, ← toNat_kkField, ← decodeClass0_eq_none, ← decodeClass8_eq_none,
    ← decodeClassE_eq_none, ← decodeClassF_eq_none]
  unfold decodeWord
  split
  case h_16 =>
    have hop : opField w = 0xF#4 := by simp only [imp_false] at *; bv_omega
    simp [hop]
  case h_6 hop | h_10 hop => simp [hop, BitVec.toNat_eq]
  all_goals simp [*]

namespace Machine

/-- Settles O5: the illegal words are those listed, and the fetch of one ends in the step's raise, which writes `status`
alone. -/
theorem illegalWordsRaiseDecodeError : Obligations.IllegalWordsRaiseDecodeError := by
  refine ⟨decodeWord_eq_none, fun s hs hfetch hw => ?_⟩
  exact State.coreStep_of_decodeWord_eq_none hs hfetch ((decodeWord_eq_none s.fetchWord).mpr hw)

end Machine

/-! ## Written-out words -/

/-- Settles O1: the bytes that the source gives are those of the four instructions. -/
theorem sourceEncodingsDecode : Obligations.SourceEncodingsDecode :=
  ⟨decodeAfterEncode (.loadImm 0x1 0x11) [], decodeAfterEncode (.addImm 0x7 0x51) [],
    decodeAfterEncode (.draw 0x1 0x2 0x3) [], decodeAfterEncode .clear []⟩

/-- Settles O2: the legal words are encodings, and the four neighbours are in the list of illegal words. -/
theorem conventionalEncodingsDecode : Obligations.ConventionalEncodingsDecode := by
  refine ⟨decodeWord_encode .ret, decodeWord_encode (.jump 0x204), decodeWord_encode (.call 0x210),
    decodeWord_encode (.skipEqImm 0xF 0x01), decodeWord_encode (.skipNeReg 0x1 0x2), decodeWord_encode (.subn 0x1 0x2),
    decodeWord_encode (.shl 0x1 0x2), decodeWord_encode (.loadI 0x20C), decodeWord_encode (.jumpV0 0xFFF),
    decodeWord_encode (.random 0x3 0x0F), decodeWord_encode (.skipKey 0x2), decodeWord_encode (.loadKey 0x2),
    decodeWord_encode (.storeAll 0x2), ?_, ?_, ?_, ?_⟩
  all_goals exact (decodeWord_eq_none _).mpr (by decide)

end Sys2Proof
end

section
/-! The encoder on text: it reads back what the printer writes, answers two bytes that decode, and reports an unknown
instruction for unregistered mnemonics alone (30_encoding R120 to R130). -/

namespace Sys2Proof.Machine

/-! ## Printed operands: shape and value -/

@[simp] theorem upperText_printReg (x : Nibble) : upperText (printReg x) = printReg x := by
  simp [upperText, printReg]

@[simp] theorem upperText_printByte (b : Byte) :
    upperText (printByte b) = ['0', 'X', hexDigit (b.extractLsb' 4 4), hexDigit (b.extractLsb' 0 4)] := by
  simp [upperText, printByte]

@[simp] theorem upperText_printAddr (a : Addr12) :
    upperText (printAddr a) =
      ['0', 'X', hexDigit (a.extractLsb' 8 4), hexDigit (a.extractLsb' 4 4), hexDigit (a.extractLsb' 0 4)] := by
  simp [upperText, printAddr]

@[simp] theorem shapeOf_printReg (x : Nibble) : shapeOf (printReg x) = .register := by
  simp [shapeOf, shapeOfUpper, printReg, upperText, looksLikeRegister]

@[simp] theorem shapeOf_printByte (b : Byte) : shapeOf (printByte b) = .byte := by
  simp [shapeOf, shapeOfUpper, looksLikeRegister, looksLikeAddress, stripPrefix]

@[simp] theorem shapeOf_printAddr (a : Addr12) : shapeOf (printAddr a) = .address := by
  simp [shapeOf, shapeOfUpper, looksLikeRegister, looksLikeAddress, stripPrefix]

/-- The digits of a printed byte write its value. -/
theorem hexNumber_byteDigits (b : Byte) :
    hexNumber [hexDigit (b.extractLsb' 4 4), hexDigit (b.extractLsb' 0 4)] = some b.toNat := by
  have hvalue : 16 * (b.toNat / 16 % 16) + b.toNat % 16 = b.toNat := by omega
  simp [hexNumber, hexNumberFrom, Nat.shiftRight_eq_div_pow, hvalue]

/-- The digits of a printed address write its value. -/
theorem hexNumber_addrDigits (a : Addr12) :
    hexNumber [hexDigit (a.extractLsb' 8 4), hexDigit (a.extractLsb' 4 4), hexDigit (a.extractLsb' 0 4)] =
      some a.toNat := by
  have hvalue : 16 * (16 * (a.toNat / 256 % 16) + a.toNat / 16 % 16) + a.toNat % 16 = a.toNat := by omega
  simp [hexNumber, hexNumberFrom, Nat.shiftRight_eq_div_pow, hvalue]

/-- The check that every literal of the operand `t` is under (R124): a number, and one that fits `n` bits. -/
def literalOfWidth (n : Nat) (t : Text) : Option Nat → Except AsmError (BitVec n)
  | some v => if v < 2 ^ n then .ok (BitVec.ofNat n v) else .error (.badLiteral t)
  | none => .error (.badLiteral t)

theorem parseRegister_eq (t : Text) : parseRegister t = literalOfWidth 4 t (hexNumber ((upperText t).drop 1)) := rfl

theorem parseByte_eq (t : Text) : parseByte t = literalOfWidth 8 t (hexNumber (stripPrefix (upperText t))) := rfl

theorem parseAddress_eq (t : Text) : parseAddress t = literalOfWidth 12 t (hexNumber (stripPrefix (upperText t))) := rfl

@[simp] theorem literalOfWidth_toNat {n : Nat} (t : Text) (b : BitVec n) : literalOfWidth n t (some b.toNat) = .ok b := by
  simp [literalOfWidth, b.isLt]

@[simp] theorem parseRegister_printReg (x : Nibble) : parseRegister (printReg x) = .ok x := by
  simp [parseRegister_eq, printReg, upperText, hexNumber, hexNumberFrom]

@[simp] theorem parseByte_printByte (b : Byte) : parseByte (printByte b) = .ok b := by
  simp [parseByte_eq, stripPrefix, hexNumber_byteDigits]

@[simp] theorem parseAddress_printAddr (a : Addr12) : parseAddress (printAddr a) = .ok a := by
  simp [parseAddress_eq, stripPrefix, hexNumber_addrDigits]

/-- The height of `DRAW` is printed as a byte (R130) and passes its own check, at most 0x0F. -/
@[simp] theorem parseHeight_printByte (n : Nibble) : parseHeight (printByte (n.zeroExtend 8)) = .ok n := by
  have hn : n.toNat < 16 := n.isLt
  have hmod : n.toNat % 256 = n.toNat := Nat.mod_eq_of_lt (by omega)
  simp [parseHeight, hmod, hn]

/-! ## Printed instructions: the rows they select -/

@[simp] theorem asmReg_printReg (op : Nibble → Instr) (x : Nibble) : asmReg op (printReg x) = .ok (op x) := by
  rw [asmReg, parseRegister_printReg]
  rfl

@[simp] theorem asmAddr_printAddr (op : Addr12 → Instr) (nnn : Addr12) : asmAddr op (printAddr nnn) = .ok (op nnn) := by
  rw [asmAddr, parseAddress_printAddr]
  rfl

@[simp] theorem asmRegReg_printReg (op : Nibble → Nibble → Instr) (x y : Nibble) :
    asmRegReg op (printReg x) (printReg y) = .ok (op x y) := by
  rw [asmRegReg, parseRegister_printReg, parseRegister_printReg]
  rfl

@[simp] theorem asmRegByte_printReg_printByte (op : Nibble → Byte → Instr) (x : Nibble) (kk : Byte) :
    asmRegByte op (printReg x) (printByte kk) = .ok (op x kk) := by
  rw [asmRegByte, parseRegister_printReg, parseByte_printByte]
  rfl

@[simp] theorem asmJumpV0_printReg_printAddr (mt : Text) (nnn : Addr12) :
    asmJumpV0 mt (printReg 0x0#4) (printAddr nnn) = .ok (.jumpV0 nnn) := by
  rw [asmJumpV0, parseRegister_printReg, parseAddress_printAddr]
  rfl

@[simp] theorem asmDraw_printReg_printByte (x y n : Nibble) :
    asmDraw (printReg x) (printReg y) (printByte (n.zeroExtend 8)) = .ok (.draw x y n) := by
  rw [asmDraw, parseRegister_printReg, parseRegister_printReg, parseHeight_printByte]
  rfl

@[simp] theorem shapeOf_addressRegister : shapeOf ['I'] = .addressRegister := by decide
@[simp] theorem shapeOf_delayTimer : shapeOf ['D', 'T'] = .delayTimer := by decide
@[simp] theorem shapeOf_soundTimer : shapeOf ['S', 'T'] = .soundTimer := by decide
@[simp] theorem shapeOf_keypress : shapeOf ['K'] = .keypress := by decide
@[simp] theorem shapeOf_bcdTarget : shapeOf ['B'] = .bcdTarget := by decide
@[simp] theorem shapeOf_fontTarget : shapeOf ['F'] = .fontTarget := by decide

/-- The mnemonic of a printed instruction and the shapes of its operands select the instruction's own row, and the row reads
the operands back. -/
theorem parseInstr_printInstr (i : Instr) : parseInstr (printInstr i).1 (printInstr i).2 = .ok i := by
  cases i
  all_goals simp [printInstr, parseInstr, asmRow, asmRow1, asmRow2]

/-! ## What the encoder answers -/

theorem assemble_eq_ok (m : Text) (ops : List Text) (bs : List Byte) :
    assemble m ops = .ok bs ↔ ∃ i, parseInstr m ops = .ok i ∧ encodeBytes i = bs := by
  unfold assemble
  cases parseInstr m ops <;> simp

theorem assemble_eq_error (m : Text) (ops : List Text) (e : AsmError) :
    assemble m ops = .error e ↔ parseInstr m ops = .error e := by
  unfold assemble
  cases parseInstr m ops <;> simp

/-- Settles O6: the printed text is read as the instruction, whose bytes are the answer. -/
theorem assembleAfterPrint : Obligations.AssembleAfterPrint := fun i =>
  (assemble_eq_ok _ _ _).mpr ⟨i, parseInstr_printInstr i, rfl⟩

/-- Settles O7: the answer is the bytes of the instruction read, which O3 decodes. -/
theorem assembledBytesDecode : Obligations.AssembledBytesDecode := by
  intro m ops bs h
  obtain ⟨i, hi, rfl⟩ := (assemble_eq_ok m ops bs).mp h
  exact ⟨rfl, i, hi, decodeAfterEncode i []⟩

/-! ## Unknown instructions -/

/-- The answer is not the error `UnknownInstruction`. -/
def NotUnknown {α : Type} (r : Except AsmError α) : Prop := ∀ m, r ≠ .error (.unknownInstruction m)

@[simp] theorem NotUnknown.ok {α : Type} (a : α) : NotUnknown (.ok a) := nofun

@[simp] theorem NotUnknown.badLiteral {α : Type} (t : Text) : NotUnknown (.error (.badLiteral t) : Except AsmError α) :=
  nofun

@[simp] theorem NotUnknown.invalidOperands {α : Type} (m : Text) (ops : List Text) :
    NotUnknown (.error (.invalidOperands m ops) : Except AsmError α) := nofun

/-- Readings in a row keep the property. -/
theorem NotUnknown.bind {α β : Type} {r : Except AsmError α} {f : α → Except AsmError β} (hr : NotUnknown r)
    (hf : ∀ a, NotUnknown (f a)) : NotUnknown (r >>= f) := by
  cases r with
  | ok a => exact hf a
  | error e => exact fun m h => hr m (congrArg _ (Except.error.inj h))

theorem literalOfWidth_notUnknown (n : Nat) (t : Text) (o : Option Nat) : NotUnknown (literalOfWidth n t o) := by
  cases o with
  | none => exact .badLiteral t
  | some v =>
    rw [literalOfWidth]
    split_ifs
    · exact .ok _
    · exact .badLiteral t

theorem parseRegister_notUnknown (t : Text) : NotUnknown (parseRegister t) := literalOfWidth_notUnknown 4 t _

theorem parseByte_notUnknown (t : Text) : NotUnknown (parseByte t) := literalOfWidth_notUnknown 8 t _

theorem parseAddress_notUnknown (t : Text) : NotUnknown (parseAddress t) := literalOfWidth_notUnknown 12 t _

theorem parseHeight_notUnknown (t : Text) : NotUnknown (parseHeight t) := by
  have hbyte := parseByte_notUnknown t
  unfold parseHeight
  split
  · split_ifs
    · exact .ok _
    · exact .badLiteral t
  · next e he => exact fun m h => hbyte m (he.trans (congrArg _ (Except.error.inj h)))

@[simp] theorem asmReg_notUnknown (op : Nibble → Instr) (a : Text) : NotUnknown (asmReg op a) :=
  (parseRegister_notUnknown a).bind fun _ => .ok _

@[simp] theorem asmAddr_notUnknown (op : Addr12 → Instr) (a : Text) : NotUnknown (asmAddr op a) :=
  (parseAddress_notUnknown a).bind fun _ => .ok _

@[simp] theorem asmRegReg_notUnknown (op : Nibble → Nibble → Instr) (a b : Text) : NotUnknown (asmRegReg op a b) :=
  (parseRegister_notUnknown a).bind fun _ => (parseRegister_notUnknown b).bind fun _ => .ok _

@[simp] theorem asmRegByte_notUnknown (op : Nibble → Byte → Instr) (a b : Text) : NotUnknown (asmRegByte op a b) :=
  (parseRegister_notUnknown a).bind fun _ => (parseByte_notUnknown b).bind fun _ => .ok _

@[simp] theorem asmJumpV0_notUnknown (mt a b : Text) : NotUnknown (asmJumpV0 mt a b) := by
  refine (parseRegister_notUnknown a).bind fun x => (parseAddress_notUnknown b).bind fun _ => ?_
  split_ifs
  · exact .ok _
  · exact .invalidOperands _ _

@[simp] theorem asmDraw_notUnknown (a b c : Text) : NotUnknown (asmDraw a b c) :=
  (parseRegister_notUnknown a).bind fun _ => (parseRegister_notUnknown b).bind fun _ =>
    (parseHeight_notUnknown c).bind fun _ => .ok _

theorem asmRow1_notUnknown {m : Mnemonic} {sa : Shape} {a : Text} {r : Except AsmError Instr}
    (h : asmRow1 m sa a = some r) : NotUnknown r := by
  unfold asmRow1 at h
  split at h <;> cases h <;> simp

theorem asmRow2_notUnknown {m : Mnemonic} {sa sb : Shape} {mt a b : Text} {r : Except AsmError Instr}
    (h : asmRow2 m sa sb mt a b = some r) : NotUnknown r := by
  unfold asmRow2 at h
  split at h <;> cases h <;> simp

/-- No row of the table reports an unknown instruction. -/
theorem asmRow_notUnknown {m : Mnemonic} {mt : Text} {ops : List Text} {r : Except AsmError Instr}
    (h : asmRow m mt ops = some r) : NotUnknown r := by
  unfold asmRow at h
  split at h
  · split at h <;> cases h <;> simp
  · exact asmRow1_notUnknown h
  · exact asmRow2_notUnknown h
  · split_ifs at h
    cases h
    simp
  · cases h

/-- A registered mnemonic is never reported as unknown, whatever its operands. -/
theorem parseInstr_notUnknown {m : Text} {c : Mnemonic} (hm : canonicalMnemonic m = some c) (ops : List Text) :
    NotUnknown (parseInstr m ops) := by
  simp only [parseInstr, hm]
  split
  · simp
  · next r hr => exact asmRow_notUnknown hr

/-- Settles O8: an unregistered mnemonic is reported as it stands, and a registered one never. -/
theorem unknownMnemonicsOnly : Obligations.UnknownMnemonicsOnly := by
  intro m m' ops
  rw [assemble_eq_error]
  cases hm : canonicalMnemonic m with
  | none => simp [parseInstr, hm, eq_comm]
  | some c => simpa using parseInstr_notUnknown hm ops m'

end Sys2Proof.Machine
end

section
/-! The four flow instructions: CLEAR, RETURN, JUMP and CALL (40_flow R140 to R146). -/

namespace Sys2Proof.Machine

/-! ## RETURN and CALL, one equation a branch -/

theorem exec_ret_of_empty {s : State} (hsp : s.sp = 0x00#8) : exec .ret s = .next (s.raise (.stackUnderflow s.pc)) :=
  if_pos hsp

theorem exec_ret_of_live {s : State} (hsp : s.sp ≠ 0x00#8) (htop : (s.sp - 1#8).toNat < 16) :
    exec .ret s = .next ({ s with sp := s.sp - 1#8 }.jumpTo s.stack[(s.sp - 1#8).toNat]) :=
  (if_neg hsp).trans (dif_pos htop)

theorem exec_call_of_room (nnn : Addr12) {s : State} (hsp : s.sp.toNat < 16) :
    exec (.call nnn) s =
      .next ({ s with stack := s.stack.set s.sp.toNat (s.pc + 2#16), sp := s.sp + 1#8 }.jumpTo (nnn.zeroExtend 16)) :=
  dif_pos hsp

theorem exec_call_of_full (nnn : Addr12) {s : State} (hsp : ¬s.sp.toNat < 16) :
    exec (.call nnn) s = .next (s.raise (.stackOverflow s.pc)) :=
  dif_neg hsp

/-! ## The values written -/

/-- The target of a jump or call, as a number: the 12 bits of `nnn` fit in `pc`. -/
theorem toNat_zeroExtend_addr (nnn : Addr12) : (nnn.zeroExtend 16).toNat = nnn.toNat :=
  BitVec.toNat_setWidth_of_le (by decide)

/-- The stack after a push, in numbers: the return address at the old `SP`, every other entry as it was. -/
theorem toNat_getElem_push (stack : Vector Word 16) (pc : Word) {n k : Nat} (hn : n < 16) (hk : k < 16) :
    ((stack.set n (pc + 2#16))[k]).toNat = if k = n then (pc.toNat + 2) % 65536 else stack[k].toNat := by
  obtain rfl | hne := eq_or_ne k n
  · rw [Vector.getElem_set_self, if_pos rfl, BitVec.toNat_add]
    rfl
  · rw [Vector.getElem_set_ne _ _ hne.symm, if_neg hne]

/-! ## The four statements -/

/-- Settles O35: a live entry is popped, since `SP - 1` neither borrows nor leaves the stack; with none live the raise writes
`status` alone. -/
theorem returnPops : Obligations.ReturnPops := by
  refine ⟨fun s hpos hle => ?_, fun s hsp => exec_ret_of_empty hsp⟩
  have hlive : s.sp ≠ 0x00#8 := fun hsp => by simp [hsp] at hpos
  have hpred : (s.sp - 1#8).toNat = s.sp.toNat - 1 := by bv_omega
  refine ⟨_, exec_ret_of_live hlive (by omega), hpred, fun k hk htop => ?_, rfl⟩
  have hindex : (s.sp - 1#8).toNat = k := by omega
  simp [hindex]

/-- Settles O37: with room the push stores the return address at the old `SP`; with none the raise writes `status` alone. -/
theorem callPushes : Obligations.CallPushes := by
  refine ⟨fun nnn s hsp => ?_, fun nnn s hfull => exec_call_of_full nnn hfull.not_gt⟩
  have hsucc : (s.sp + 1#8).toNat = s.sp.toNat + 1 := by bv_omega
  exact ⟨_, exec_call_of_room nnn hsp, hsucc, toNat_zeroExtend_addr nnn,
    fun k hk => toNat_getElem_push s.stack s.pc hsp hk, rfl⟩

/-- Settles O34: the display written is the replicated zero byte. -/
theorem clearZeroesDisplay : Obligations.ClearZeroesDisplay := fun _ =>
  ⟨_, rfl, fun _ hk => Vector.getElem_replicate hk, rfl, rfl⟩

/-- Settles O36: the transfer writes `pc` alone. -/
theorem jumpWritesPc : Obligations.JumpWritesPc := fun nnn _ =>
  ⟨_, rfl, toNat_zeroExtend_addr nnn, rfl⟩

end Sys2Proof.Machine
end

section
/-! The conditional skips (41_skip R149 to R153). -/

namespace Sys2Proof.Machine

/-- A skip on a test that decides `cond`, in numbers: 4 when `cond` holds, else the default advance, and `pc` is all it
writes. -/
theorem State.skipIf_moves (s : State) {c : Bool} {cond : Prop} (hc : c = true ↔ cond) :
    (cond → (s.skipIf c).pc.toNat = (s.pc.toNat + 4) % 65536) ∧
    (¬cond → (s.skipIf c).pc.toNat = (s.pc.toNat + 2) % 65536) ∧ { s.skipIf c with pc := s.pc } = s := by
  refine ⟨fun hcond => ?_, fun hcond => ?_, rfl⟩
  · rw [State.skipIf_pc, if_pos (hc.mpr hcond), BitVec.toNat_add]
    rfl
  · rw [State.skipIf_pc, if_neg (mt hc.mp hcond), BitVec.toNat_add]
    rfl

/-- Settles O38: each instruction is a skip, on a Boolean test that decides its condition. -/
theorem registerSkips : Obligations.RegisterSkips := fun _ _ _ s =>
  ⟨⟨_, rfl, s.skipIf_moves beq_iff_eq⟩, ⟨_, rfl, s.skipIf_moves bne_iff_ne⟩,
    ⟨_, rfl, s.skipIf_moves beq_iff_eq⟩, ⟨_, rfl, s.skipIf_moves bne_iff_ne⟩⟩

end Sys2Proof.Machine
end

section
/-! Register loads and the ALU (42_load_alu R158 to R171). -/

namespace Sys2Proof.Machine

/-! ## A result in `V[x]`, and a flag before it -/

/-- A result and the default advance write `V[x]` and `pc` alone. -/
theorem State.onlyRegs_setReg_advance (s : State) (x : Nibble) (b : Byte) : onlyRegs [x] s (s.setReg x b).advance := by
  refine ⟨fun r hr => ?_, rfl, fun _ => rfl, rfl, ⟨rfl, rfl⟩, ⟨rfl, rfl⟩, rfl, rfl, rfl, rfl, rfl⟩
  rw [State.reg_advance, State.reg_setReg, if_neg (List.ne_of_not_mem_cons hr)]

/-- A flagged result writes `V[x]`, `VF` and `pc` alone. -/
theorem State.onlyRegs_writeFlagged (s : State) (x : Nibble) (f : Bool) (b : Byte) :
    onlyRegs [x, 0xF#4] s (s.writeFlagged x f b) := by
  refine ⟨fun r hr => ?_, rfl, fun _ => rfl, rfl, ⟨rfl, rfl⟩, ⟨rfl, rfl⟩, rfl, rfl, rfl, rfl, rfl⟩
  have hrx : r ≠ x := List.ne_of_not_mem_cons hr
  have hrf : r ≠ 0xF#4 := List.ne_of_not_mem_cons (List.not_mem_of_not_mem_cons hr)
  rw [State.reg_writeFlagged, if_neg hrx, if_neg hrf]

/-- The result is written last, so it stands in `V[x]` even for `x = 15` (R159). -/
@[simp] theorem State.reg_writeFlagged_same (s : State) (x : Nibble) (f : Bool) (b : Byte) :
    (s.writeFlagged x f b).reg x = b := by
  rw [State.reg_writeFlagged, if_pos rfl]

/-- Where the result does not overwrite it, `VF` holds the flag. -/
theorem State.reg_writeFlagged_flag (s : State) {x : Nibble} (f : Bool) (b : Byte) (hx : x ≠ 0xF#4) :
    (s.writeFlagged x f b).reg 0xF#4 = flagByte f := by
  rw [State.reg_writeFlagged, if_neg hx.symm, if_pos rfl]

/-! ## The flags and results in numbers -/

theorem flagByte_decide (p : Prop) [Decidable p] : flagByte (decide p) = if p then 0x01#8 else 0x00#8 :=
  ite_congr decide_eq_true_eq (fun _ => rfl) (fun _ => rfl)

theorem toNat_flagByte (f : Bool) : (flagByte f).toNat = f.toNat := by cases f <;> rfl

theorem toNat_shrBitOut (a : Byte) : (shrBitOut a).toNat = a.toNat % 2 := by
  rw [shrBitOut, BitVec.getLsbD, Nat.toNat_testBit, pow_zero, Nat.div_one]

/-- Bit 7 is the highest of a byte, so it alone is the quotient by 128. -/
theorem toNat_shlBitOut (a : Byte) : (shlBitOut a).toNat = a.toNat / 128 := by
  rw [shlBitOut, BitVec.getLsbD, Nat.toNat_testBit]
  exact Nat.mod_eq_of_lt (Nat.div_lt_of_lt_mul a.isLt)

/-- The difference modulo 256, of a borrow too (`Int`'s `%` is never negative here). -/
theorem toNat_byte_sub (a b : Byte) : ((a - b).toNat : Int) = (a.toNat - b.toNat : Int) % 256 := by
  have ha := a.isLt
  have hb := b.isLt
  rw [BitVec.toNat_sub]
  omega

theorem toNat_byte_shl_one (a : Byte) : (a <<< 1).toNat = 2 * a.toNat % 256 := by
  rw [BitVec.toNat_shiftLeft, Nat.shiftLeft_eq, mul_comm, pow_one]

/-- The subtraction both SUB and SUBN end in, `a` and `b` being their operands in order: the difference in `V[x]`, and in
`VF` no borrow (R168, R170). -/
theorem State.writeFlagged_sub (s : State) (x : Nibble) (a b : Byte) :
    (((s.writeFlagged x (noBorrow a b) (a - b)).reg x).toNat : Int) = (a.toNat - b.toNat : Int) % 256 ∧
    (x ≠ 0xF#4 → (s.writeFlagged x (noBorrow a b) (a - b)).reg 0xF#4 = if b.toNat ≤ a.toNat then 0x01#8 else 0x00#8) := by
  refine ⟨?_, fun hx => ?_⟩
  · rw [State.reg_writeFlagged_same, toNat_byte_sub]
  · rw [State.reg_writeFlagged_flag s _ _ hx, noBorrow, flagByte_decide]

/-! ## The eight statements -/

/-- Settles O42: each writes the bitwise operation's byte, whose bits the library gives. -/
theorem bitwiseOperations : Obligations.BitwiseOperations := by
  intro x y s bits
  refine ⟨⟨_, rfl, fun k _ => ?_, rfl, s.onlyRegs_setReg_advance x _⟩,
    ⟨_, rfl, fun k _ => ?_, rfl, s.onlyRegs_setReg_advance x _⟩,
    ⟨_, rfl, fun k _ => ?_, rfl, s.onlyRegs_setReg_advance x _⟩⟩ <;>
    rw [State.reg_advance, State.reg_setReg_same]
  · exact BitVec.getLsbD_or
  · exact BitVec.getLsbD_and
  · exact BitVec.getLsbD_xor

/-- Settles O43: the byte sum wraps, and its carry is the flag. -/
theorem addSetsCarry : Obligations.AddSetsCarry := by
  intro x y s
  refine ⟨_, rfl, ?_, fun hx => ?_, rfl, s.onlyRegs_writeFlagged x _ _⟩
  · rw [State.reg_writeFlagged_same, BitVec.toNat_add]
  · rw [State.reg_writeFlagged_flag s _ _ hx, addCarry, flagByte_decide]

/-- Settles O44: the operands are `V[x]`, `V[y]`. -/
theorem subSetsNoBorrow : Obligations.SubSetsNoBorrow := fun x y s =>
  have ⟨hdiff, hflag⟩ := s.writeFlagged_sub x (s.reg x) (s.reg y)
  ⟨_, rfl, hdiff, hflag, rfl, s.onlyRegs_writeFlagged x _ _⟩

/-- Settles O45: the operands are `V[y]`, `V[x]`. -/
theorem subnSetsNoBorrow : Obligations.SubnSetsNoBorrow := fun x y s =>
  have ⟨hdiff, hflag⟩ := s.writeFlagged_sub x (s.reg y) (s.reg x)
  ⟨_, rfl, hdiff, hflag, rfl, s.onlyRegs_writeFlagged x _ _⟩

/-- Settles O46: the flag is the remainder of the halving. -/
theorem shrHalves : Obligations.ShrHalves := by
  intro x y s
  refine ⟨_, rfl, ?_, fun hx => ?_, rfl, s.onlyRegs_writeFlagged x _ _⟩
  · rw [State.reg_writeFlagged_same, BitVec.toNat_ushiftRight, Nat.shiftRight_one]
  · rw [State.reg_writeFlagged_flag s _ _ hx, toNat_flagByte, toNat_shrBitOut]

/-- Settles O47: the flag is the bit the doubling loses. -/
theorem shlDoubles : Obligations.ShlDoubles := by
  intro x y s
  refine ⟨_, rfl, ?_, fun hx => ?_, rfl, s.onlyRegs_writeFlagged x _ _⟩
  · rw [State.reg_writeFlagged_same, toNat_byte_shl_one]
  · rw [State.reg_writeFlagged_flag s _ _ hx, toNat_flagByte, toNat_shlBitOut]

/-- Settles O40: both write their source as the result. -/
theorem loadRegister : Obligations.LoadRegister := fun x _ _ s =>
  ⟨⟨_, rfl, s.reg_setReg_same x _, rfl, s.onlyRegs_setReg_advance x _⟩,
    ⟨_, rfl, s.reg_setReg_same x _, rfl, s.onlyRegs_setReg_advance x _⟩⟩

/-- Settles O41: the byte sum wraps, and no flag is written before it. -/
theorem addImmediateWraps : Obligations.AddImmediateWraps := by
  intro x kk s
  refine ⟨_, rfl, ?_, rfl, s.onlyRegs_setReg_advance x _⟩
  rw [State.reg_advance, State.reg_setReg_same, BitVec.toNat_add]

end Sys2Proof.Machine
end

section
/-! The address register, the indexed jump and the random byte (43_index_random R180 to R184). -/

namespace Sys2Proof.Machine

/-- The target of the indexed jump, as a number: at most 0x0FFF + 0x00FF, so the 16-bit sum does not wrap (R182). -/
theorem toNat_byte_add_addr (b : Byte) (nnn : Addr12) :
    (b.zeroExtend 16 + nnn.zeroExtend 16).toNat = b.toNat + nnn.toNat := by
  have hnnn : nnn.toNat < 4096 := nnn.isLt
  have hb : b.toNat < 256 := b.isLt
  rw [BitVec.toNat_add, BitVec.toNat_setWidth_of_le (by decide), toNat_zeroExtend_addr]
  omega

/-- A masked byte has no bit where the mask has none. -/
theorem and_mask_and_not_mask (b kk : Byte) : b &&& kk &&& ~~~kk = 0x00#8 := by
  rw [BitVec.and_assoc, BitVec.and_not_self]
  exact BitVec.and_zero

/-- Settles O50: the byte written is the one on `RND` and the mask, and neither law asks which byte that is. -/
theorem randomIsMasked : Obligations.RandomIsMasked := by
  intro x kk s
  refine ⟨_, rfl, fun k _ => ?_, ?_, rfl, s.onlyRegs_setReg_advance x _⟩ <;>
    rw [State.reg_advance, State.reg_setReg_same]
  · exact BitVec.getLsbD_and
  · exact and_mask_and_not_mask _ _

/-- Settles O48: `I` takes the zero-extended address. -/
theorem loadAddressRegister : Obligations.LoadAddressRegister := fun nnn _ =>
  ⟨_, rfl, toNat_zeroExtend_addr nnn, rfl, rfl⟩

/-- Settles O49: the transfer writes `pc` alone. -/
theorem indexedJump : Obligations.IndexedJump := fun nnn s =>
  ⟨_, rfl, toNat_byte_add_addr (s.reg 0x0#4) nnn, rfl⟩

end Sys2Proof.Machine
end

section
/-! DRAW: a display write as a whole, pixel by pixel (44_draw R198 to R200). -/

namespace Sys2Proof.Machine

/-! ## What a sprite covers, row by row -/

@[simp] theorem spriteCovers_nil (x y px py : Nat) : spriteCovers [] x y px py = false := by
  simp [spriteCovers]

/-- Over its first row a sprite covers what its first byte does. -/
theorem spriteCovers_cons_of_first (b : Byte) (bs : List Byte) (x : Nat) {y py : Nat} (px : Nat) (hrow : y % 32 = py % 32) :
    spriteCovers (b :: bs) x y px py = spriteCovers [b] x y px py := by
  have hzero : (py + 32 - y % 32) % 32 = 0 := by omega
  simp only [spriteCovers, hzero, List.getD_cons_zero]

/-- Over every other row it covers what the rest does, placed one row lower. -/
theorem spriteCovers_cons_of_later (b : Byte) (bs : List Byte) (x : Nat) {y py : Nat} (px : Nat) (hrow : y % 32 ≠ py % 32) :
    spriteCovers (b :: bs) x y px py = spriteCovers bs x (y + 1) px py := by
  have hsucc : (py + 32 - y % 32) % 32 = (py + 32 - (y + 1) % 32) % 32 + 1 := by omega
  simp only [spriteCovers, hsucc, List.getD_cons_succ]

/-- A sprite byte covers pixels of its own row only: its bit `7 - j` the one `j` places right of `x`. -/
theorem spriteCovers_singleton (b : Byte) (x y px py : Nat) :
    spriteCovers [b] x y px py = (decide (y % 32 = py % 32) &&
      (decide ((px + 64 - x % 64) % 64 < 8) && b.getLsbD (7 - (px + 64 - x % 64) % 64))) := by
  by_cases hrow : y % 32 = py % 32
  · have hzero : (py + 32 - y % 32) % 32 = 0 := by omega
    simp only [spriteCovers, hzero, List.getD_cons_zero, decide_eq_true hrow, Bool.true_and]
  · rw [spriteCovers_cons_of_later b [] x px hrow, spriteCovers_nil, decide_eq_false hrow, Bool.false_and]

/-- Fewer than 32 bytes from the row below do not come round to the row itself. -/
theorem spriteCovers_succ_of_first {bs : List Byte} (hlen : bs.length < 32) (x : Nat) {y py : Nat} (px : Nat)
    (hrow : y % 32 = py % 32) : spriteCovers bs x (y + 1) px py = false := by
  have hlast : (py + 32 - (y + 1) % 32) % 32 = 31 := by omega
  simp [spriteCovers, hlast, List.getElem?_eq_none (Nat.le_of_lt_succ hlen)]

/-- So no pixel is under both the first byte and the rest. -/
theorem spriteCovers_first_or_rest_eq_false (b : Byte) {bs : List Byte} (hlen : bs.length < 32) (x y px py : Nat) :
    spriteCovers [b] x y px py = false ∨ spriteCovers bs x (y + 1) px py = false := by
  by_cases hrow : y % 32 = py % 32
  · exact .inr (spriteCovers_succ_of_first hlen x px hrow)
  · exact .inl ((spriteCovers_cons_of_later b [] x px hrow).trans (spriteCovers_nil ..))

/-- Being under a sprite of at most 32 bytes is being under its first byte or under the rest, in the exclusive sense. -/
theorem spriteCovers_cons (b : Byte) {bs : List Byte} (hlen : bs.length < 32) (x y px py : Nat) :
    spriteCovers (b :: bs) x y px py = (spriteCovers [b] x y px py != spriteCovers bs x (y + 1) px py) := by
  by_cases hrow : y % 32 = py % 32
  · rw [spriteCovers_cons_of_first b bs x px hrow, spriteCovers_succ_of_first hlen x px hrow, Bool.bne_false]
  · rw [spriteCovers_cons_of_later b bs x px hrow, spriteCovers_cons_of_later b [] x px hrow, spriteCovers_nil,
      Bool.false_bne]

/-- A bit of the sprite covers the pixel it is placed over: bit `k` of byte `i` the one `7 - k` right of `x` and `i` below
`y`, where at most 32 rows and 64 columns leave the way back unambiguous. -/
theorem spriteCovers_of_bit {sprite : List Byte} (hlen : sprite.length ≤ 32) (x y : Nat) {i k : Nat}
    (hi : i < sprite.length) (hk : k < 8) (hbit : sprite[i].getLsbD k = true) :
    spriteCovers sprite x y ((x + (7 - k)) % 64) ((y + i) % 32) = true := by
  have hrow : ((y + i) % 32 + 32 - y % 32) % 32 = i := by omega
  have hcol : ((x + (7 - k)) % 64 + 64 - x % 64) % 64 = 7 - k := by omega
  have hk' : 7 - (7 - k) = k := by omega
  simp only [spriteCovers, hrow, hcol, hk', List.getD_eq_getElem _ _ hi, hbit, Bool.and_true, decide_eq_true_eq]
  omega

/-- A sprite of at most 32 bytes with a set bit covers a pixel of the display. -/
theorem exists_spriteCovers {sprite : List Byte} (hlen : sprite.length ≤ 32) (hset : ∃ b ∈ sprite, b ≠ 0x00#8) (x y : Nat) :
    ∃ px py, px < 64 ∧ py < 32 ∧ spriteCovers sprite x y px py = true := by
  obtain ⟨b, hmem, hne⟩ := hset
  obtain ⟨i, hi, rfl⟩ := List.getElem_of_mem hmem
  obtain ⟨k, hk, hbit⟩ : ∃ k < 8, sprite[i].getLsbD k = true := by
    by_contra! hclear
    exact hne (BitVec.eq_of_getLsbD_eq fun k hk => by simpa using hclear k hk)
  exact ⟨_, _, Nat.mod_lt _ (by decide), Nat.mod_lt _ (by decide), spriteCovers_of_bit hlen x y hi hk hbit⟩

/-! ## The display write -/

/-- Two displays with equal pixels are equal. -/
theorem display_eq_of_pixel {d e : Display} (h : ∀ px py, px < 64 → py < 32 → pixel d px py = pixel e px py) : d = e := by
  refine display_ext d e fun row col hrow hcol => BitVec.eq_of_getLsbD_eq fun k hk => ?_
  have hbyte : (8 * col + (7 - k)) / 8 = col := by omega
  have hbit : 7 - (8 * col + (7 - k)) % 8 = k := by omega
  simpa only [pixel, hbyte, hbit] using h (8 * col + (7 - k)) row (by omega) hrow

/-- One row of a write is the write of a sprite of one byte. -/
theorem pixel_blitRow_eq_spriteCovers (d : Display) (b : Byte) (x y : Nat) {px : Nat} (py : Nat) (hpx : px < 64) :
    pixel (blitRow d b x y).1 px py = (pixel d px py != spriteCovers [b] x y px py) := by
  rw [pixel_blitRow d b x y px py hpx, spriteCovers_singleton]

/-- One row collides exactly when a pixel its byte covers was set. -/
theorem blitRow_collides_iff_spriteCovers (d : Display) (b : Byte) (x y : Nat) :
    (blitRow d b x y).2 = true ↔
      ∃ px py, px < 64 ∧ py < 32 ∧ spriteCovers [b] x y px py = true ∧ pixel d px py = true := by
  simp only [blitRow_collides, spriteCovers_singleton, Bool.and_eq_true, decide_eq_true_eq, and_assoc]

/-- A write inverts exactly the pixels that the sprite covers: the rows' inversions add up. -/
theorem pixel_dispWrite (d : Display) {sprite : List Byte} (hlen : sprite.length ≤ 32) (x y : Nat) {px : Nat} (py : Nat)
    (hpx : px < 64) :
    pixel (dispWrite d sprite x y).1 px py = (pixel d px py != spriteCovers sprite x y px py) := by
  induction sprite generalizing d y with
  | nil => simp
  | cons b bs ih =>
    have hbs : bs.length < 32 := hlen
    rw [dispWrite_cons, ih _ hbs.le, pixel_blitRow_eq_spriteCovers d b x y py hpx, spriteCovers_cons b hbs, Bool.bne_assoc]

/-- A write collides exactly when a pixel that the sprite covers was set. A later row finds its pixels as they were, since the
first row covers none of them. -/
theorem dispWrite_collides (d : Display) {sprite : List Byte} (hlen : sprite.length ≤ 32) (x y : Nat) :
    (dispWrite d sprite x y).2 = true ↔
      ∃ px py, px < 64 ∧ py < 32 ∧ spriteCovers sprite x y px py = true ∧ pixel d px py = true := by
  induction sprite generalizing d y with
  | nil => simp
  | cons b bs ih =>
    have hbs : bs.length < 32 := hlen
    rw [dispWrite_cons, Bool.or_eq_true, ih _ hbs.le, blitRow_collides_iff_spriteCovers]
    simp only [← exists_or, ← and_or_left]
    refine exists_congr fun px => exists_congr fun py => and_congr_right fun hpx => and_congr_right fun _ => ?_
    rw [pixel_blitRow_eq_spriteCovers d b x y py hpx, spriteCovers_cons b hbs]
    obtain hfirst | hrest := spriteCovers_first_or_rest_eq_false b hbs x y px py
    · simp [hfirst]
    · simp [hrest]

/-! ## The instruction -/

/-- DRAW with its sprite in range: the display write, then its collision in `VF` (R199). -/
theorem exec_draw_of_canAccess (x y : Nibble) {n : Nibble} {s : State} (h : s.canAccess n.toNat) :
    exec (.draw x y n) s =
      .next ({ s with disp := (s.drawResult x y n).1 }.setFlag (s.drawResult x y n).2).advance :=
  congrArg Host.Outcome.next (s.guardData_of_canAccess _ _ h)

theorem State.reg_setFlag_same (s : State) (f : Bool) : (s.setFlag f).reg 0xF#4 = flagByte f := s.reg_setReg_same _ _

theorem flagByte_eq_one_or_zero (f : Bool) : flagByte f = 0x01#8 ∨ flagByte f = 0x00#8 := by cases f <;> decide

theorem flagByte_eq_one (f : Bool) : flagByte f = 0x01#8 ↔ f = true := by cases f <;> decide

/-! ## The two statements -/

/-- Settles O51: in range DRAW is one display write, of a sprite of at most 15 bytes, and its collision goes to `VF`. -/
theorem drawInvertsPixels : Obligations.DrawInvertsPixels := by
  intro x y n s haccess sprite covers
  have hlen : sprite.length ≤ 32 := by
    have hn : n.toNat < 16 := n.isLt
    have hlength : sprite.length = n.toNat := s.readBytes_length _ _
    omega
  refine ⟨_, exec_draw_of_canAccess x y haccess, fun px py hpx _ => ?_, ?_, ?_, rfl, fun r hr => ?_, rfl⟩
  · exact pixel_dispWrite s.disp hlen _ _ py hpx
  · rw [State.reg_advance, State.reg_setFlag_same]
    exact flagByte_eq_one_or_zero _
  · rw [State.reg_advance, State.reg_setFlag_same, flagByte_eq_one]
    exact dispWrite_collides s.disp hlen _ _
  · rw [State.reg_advance, State.reg_setFlag, if_neg (List.ne_of_not_mem_cons hr)]
    rfl

/-- Settles O52: a clear buffer has no pixel to collide with; the first write sets every pixel the sprite covers, and there is
one, so the second collides; and two inversions of the same pixels cancel. -/
theorem drawingTwiceRestores : Obligations.DrawingTwiceRestores := by
  intro sprite x y hlen15 hset once
  have hlen : sprite.length ≤ 32 := by omega
  have honce (px py : Nat) (hpx : px < 64) : pixel once.1 px py = spriteCovers sprite x.toNat y.toNat px py := by
    rw [pixel_dispWrite blankDisplay hlen _ _ py hpx, pixel_blankDisplay, Bool.false_bne]
  refine ⟨?_, ?_, display_eq_of_pixel fun px py hpx _ => ?_⟩
  · rw [← Bool.not_eq_true, dispWrite_collides blankDisplay hlen]
    simp [pixel_blankDisplay]
  · obtain ⟨px, py, hpx, hpy, hcovers⟩ := exists_spriteCovers hlen hset x.toNat y.toNat
    exact (dispWrite_collides once.1 hlen _ _).mpr ⟨px, py, hpx, hpy, hcovers, (honce px py hpx).trans hcovers⟩
  · rw [pixel_dispWrite once.1 hlen _ _ py hpx, honce px py hpx, pixel_blankDisplay, bne_self_eq_false]

end Sys2Proof.Machine
end

section
/-! The key skips (45_keys R208 to R212). -/

namespace Sys2Proof.Machine

/-- The whole byte is the key number: it names a down key exactly when it is one of the 16 wires and that wire is set (R208). -/
theorem State.keyDown_iff (s : State) (b : Byte) :
    s.keyDown b = true ↔ ∃ k : Nat, k < 16 ∧ b.toNat = k ∧ s.input.pressed.getLsbD k = true := by
  rw [State.keyDown, Bool.and_eq_true, decide_eq_true_eq]
  constructor
  · rintro ⟨hwire, hset⟩
    exact ⟨_, hwire, rfl, hset⟩
  · rintro ⟨_, hwire, rfl, hset⟩
    exact ⟨hwire, hset⟩

/-- Settles O39: each instruction is a skip, on the key test of `V[x]` or on its negation. -/
theorem keySkips : Obligations.KeySkips := by
  intro x s down moves
  have hdown : s.keyDown (s.reg x) = true ↔ down := s.keyDown_iff (s.reg x)
  have hup : (!s.keyDown (s.reg x)) = true ↔ ¬down := by rw [Bool.not_eq_true', ← Bool.not_eq_true, hdown]
  exact ⟨⟨_, rfl, s.skipIf_moves hdown⟩, ⟨_, rfl, s.skipIf_moves hup⟩⟩

end Sys2Proof.Machine
end

section
/-! Class F: timers, the key wait, the address register, and the transfers between registers and memory (46_fgroup R220 to
R236). -/

namespace Sys2Proof.Machine

/-! ## The timers and the address register -/

/-- Settles O53: the timer's count is the result. -/
theorem readDelayTimer : Obligations.ReadDelayTimer := fun x s =>
  ⟨_, rfl, s.reg_setReg_same x s.dt, rfl, s.onlyRegs_setReg_advance x s.dt⟩

/-- Settles O54: the register's byte is the new count. -/
theorem setTimers : Obligations.SetTimers := fun _ _ => ⟨⟨_, rfl, rfl, rfl, rfl⟩, ⟨_, rfl, rfl, rfl, rfl⟩⟩

/-- Settles O56: the byte is extended without a sign, and the 16-bit sum wraps. -/
theorem addToAddressRegister : Obligations.AddToAddressRegister := by
  refine fun x s => ⟨_, rfl, ?_, rfl, rfl⟩
  show (s.i + (s.reg x).zeroExtend 16).toNat = _
  rw [BitVec.toNat_add, BitVec.toNat_setWidth_of_le (by decide)]

/-- A glyph address is at most 75, so it fits in `I`. -/
theorem toNat_glyphAddress (b : Byte) : (glyphAddress b).toNat = b.toNat % 16 * 5 := by
  rw [glyphAddress, BitVec.toNat_ofNat]
  omega

/-- Settles O57: `I` takes the model's `glyphAddress`, whose name the obligation shares. -/
theorem loadFontGlyphAddress : Obligations.GlyphAddress := fun x s => ⟨_, rfl, toNat_glyphAddress (s.reg x), rfl, rfl⟩

/-! ## The key wait -/

theorem exec_loadKey_of_event (x : Nibble) {k : Nibble} {s : State} (h : s.input.keyEvent = some k) :
    exec (.loadKey x) s = .next (s.setReg x (k.zeroExtend 8)).advance := by
  show execLoadKey x s = _
  rw [execLoadKey, h]

theorem exec_loadKey_of_no_event (x : Nibble) {s : State} (h : s.input.keyEvent = none) :
    exec (.loadKey x) s = .next s := by
  show execLoadKey x s = _
  rw [execLoadKey, h]

/-- Settles O55: an event's code is the result; and a step whose inputs bring no event executes the hold on the state that
has taken them in. -/
theorem keyWait : Obligations.KeyWait := by
  refine ⟨fun x k s hevent => ?_, fun x s => exec_loadKey_of_no_event x, fun x s hs hfetch hi hevent => ?_⟩
  · refine ⟨_, exec_loadKey_of_event x hevent, ?_, rfl, s.onlyRegs_setReg_advance x _⟩
    rw [State.reg_advance, State.reg_setReg_same]
    exact BitVec.toNat_setWidth_of_le (by decide)
  · have hstep : step s = exec (.loadKey x) s.beginStep := (stepRunsDecodedInstruction s _ hs hfetch hi).1
    rw [hstep, exec_loadKey_of_no_event x (s := s.beginStep) hevent]

/-! ## A range through `I`, accessible or not -/

/-- Under the policy `fault` a range that passes 0x0FFF raises, whatever was to be done (60_exceptions R251). -/
theorem State.guardData_of_outOfRange {s : State} (done : State) {count : Nat} (hpolicy : s.config.addrPolicy = .fault)
    (hpos : 0 < count) (hout : 0x0FFF < s.i.toNat + (count - 1)) :
    s.guardData count done = s.raise (.addressRange (max s.i.toNat 0x1000) s.pc) := by
  rw [State.guardData, (s.addressFault_eq_some _ _ _).mpr ⟨hpolicy, hpos, hout, rfl⟩]

/-- In range the BCD store is the store of its digits. -/
theorem exec_loadBcd_of_canAccess (x : Nibble) {s : State} (h : s.canAccess 3) :
    exec (.loadBcd x) s = .next (s.writeBytes s.i.toNat (bcdDigits (s.reg x))).advance :=
  congrArg Host.Outcome.next (s.guardData_of_canAccess _ _ h)

/-- In range the bulk store is the store of the register file. -/
theorem exec_storeAll_of_canAccess (x : Nibble) {s : State} (h : s.canAccess 16) :
    exec (.storeAll x) s = .next (s.writeBytes s.i.toNat s.v.toList).advance :=
  congrArg Host.Outcome.next (s.guardData_of_canAccess _ _ h)

/-- In range the bulk load replaces the register file. -/
theorem exec_loadAll_of_canAccess (x : Nibble) {s : State} (h : s.canAccess 16) :
    exec (.loadAll x) s =
      .next { s with v := Vector.ofFn (fun k : Fin 16 => s.readByte (s.i.toNat + k.val)) }.advance :=
  congrArg Host.Outcome.next (s.guardData_of_canAccess _ _ h)

/-! ## The two stores -/

/-- A store of any bytes writes memory alone: with memory put back, nothing of it is seen. -/
theorem State.writeBytes_with_mem (s : State) (a : Nat) (bs : List Byte) (m : Memory) :
    { s.writeBytes a bs with mem := m } = { s with mem := m } := by
  induction bs generalizing s a with
  | nil => rfl
  | cons b bs ih => exact ih (s.writeByte a b) (a + 1)

/-- So a store and the default advance write memory and `pc` alone. -/
theorem State.writeBytes_advance_frame (s : State) (a : Nat) (bs : List Byte) :
    { (s.writeBytes a bs).advance with mem := s.mem, pc := s.pc } = s :=
  congrArg (fun t : State => { t with pc := s.pc }) (s.writeBytes_with_mem a bs s.mem)

/-- The default advance after a store starts from the old `pc`. -/
theorem State.writeBytes_advance_pc (s : State) (a : Nat) (bs : List Byte) :
    (s.writeBytes a bs).advance.pc = s.pc + 2#16 := by
  rw [State.advance_pc, State.writeBytes_pc]

/-- A number that is no more than a byte's fits in a byte. -/
theorem toNat_ofNat_of_le_byte {n : Nat} {b : Byte} (h : n ≤ b.toNat) : (BitVec.ofNat 8 n).toNat = n :=
  Nat.mod_eq_of_lt (h.trans_lt b.isLt)

/-- Settles O58: the digits are three stored bytes, each no more than `V[x]`; out of range the guard raises. -/
theorem bcdStoresDigits : Obligations.BcdStoresDigits := by
  refine ⟨fun x s haccess => ?_, fun x s hpolicy hout => ?_⟩
  · have hlen : (bcdDigits (s.reg x)).length = 3 := rfl
    have hread (k : Nat) (hk : k < 3) :
        ((s.writeBytes s.i.toNat (bcdDigits (s.reg x))).readByte (s.i.toNat + k)).toNat = (bcdDigits (s.reg x))[k].toNat :=
      congrArg BitVec.toNat (s.readByte_writeBytes_same _ k (bcdDigits (s.reg x)) (by omega) hk)
    refine ⟨_, exec_loadBcd_of_canAccess x haccess, ?_, ?_, ?_, fun a ha => s.readByte_writeBytes_other _ a _ ha,
      s.writeBytes_advance_pc _ _, s.writeBytes_advance_frame _ _⟩
    · exact (hread 0 (by decide)).trans (toNat_ofNat_of_le_byte (b := s.reg x) (by omega))
    · exact (hread 1 (by decide)).trans (toNat_ofNat_of_le_byte (b := s.reg x) (by omega))
    · exact (hread 2 (by decide)).trans (toNat_ofNat_of_le_byte (b := s.reg x) (by omega))
  · exact ⟨_, congrArg Host.Outcome.next (State.guardData_of_outOfRange _ hpolicy (by decide) hout)⟩

/-- Settles O59: the k-th of the 16 stored bytes is `V[k]`; out of range the guard raises. -/
theorem bulkStore : Obligations.BulkStore := by
  refine ⟨fun x s haccess => ?_, fun x s hpolicy hout => ?_⟩
  · have hlen : s.v.toList.length = 16 := s.v.length_toList
    refine ⟨_, exec_storeAll_of_canAccess x haccess, fun r => ?_,
      fun a ha => s.readByte_writeBytes_other _ a _ fun k hk => ha k (hlen ▸ hk),
      s.writeBytes_advance_pc _ _, s.writeBytes_advance_frame _ _⟩
    rw [State.readByte_advance, s.readByte_writeBytes_same s.i.toNat r.toNat s.v.toList (by omega) (hlen.symm ▸ r.isLt),
      Vector.getElem_toList]
    rfl
  · exact ⟨_, congrArg Host.Outcome.next (State.guardData_of_outOfRange _ hpolicy (by decide) hout)⟩

/-! ## The bulk load -/

/-- A new register file and the default advance write nothing else. -/
theorem State.newRegs_advance_frame (s : State) (v : Vector Byte 16) :
    { ({ s with v := v } : State).advance with v := s.v, pc := s.pc } = s := rfl

/-- Settles O60: the register file is tabulated from the 16 bytes at `I`; out of range the guard raises. -/
theorem bulkLoad : Obligations.BulkLoad := by
  refine ⟨fun x s haccess => ?_, fun x s hpolicy hout => ?_⟩
  · refine ⟨_, exec_loadAll_of_canAccess x haccess, fun r => ?_, rfl, s.newRegs_advance_frame _⟩
    rw [State.reg_advance, State.reg, Vector.getElem_ofFn]
  · exact ⟨_, congrArg Host.Outcome.next (State.guardData_of_outOfRange _ hpolicy (by decide) hout)⟩

end Sys2Proof.Machine
end

section
/-! The fetch and its faults: a misaligned or out-of-range `pc`, and ranges through `I` (60_exceptions R246, R247, R251, R252). -/

namespace Sys2Proof.Machine

/-! ## A fetch that raises -/

/-- A running core whose fetch answers a cause raises it. -/
theorem State.coreStep_of_fetchInstr_error {s : State} {c : Cause} (hs : s.status = .running)
    (hfetch : s.fetchInstr = .error c) : s.coreStep = .next (s.raise c) := by
  rw [s.coreStep_running hs, hfetch]

theorem State.fetchInstr_of_odd {s : State} (hodd : s.pc.getLsbD 0 = true) :
    s.fetchInstr = .error (.fetchMisaligned s.pc) := by
  rw [State.fetchInstr_eq, hodd]
  rfl

theorem State.fetchInstr_of_addressFault {s : State} {a : Nat} (heven : s.pc.getLsbD 0 = false)
    (ha : s.addressFault s.pc.toNat 2 = some a) : s.fetchInstr = .error (.addressRange a s.pc) := by
  rw [State.fetchInstr_eq, heven, ha]
  rfl

/-- The first address of an even fetch out of range is `pc` itself: no even `pc` has its two bytes on both sides of 0x0FFF. -/
theorem State.addressFault_fetch {s : State} (heven : s.pc.getLsbD 0 = false) (a : Nat) :
    s.addressFault s.pc.toNat 2 = some a ↔
      s.config.addrPolicy = .fault ∧ 0x0FFE < s.pc.toNat ∧ a = s.pc.toNat := by
  have hmod : s.pc.toNat % 2 = 0 := by
    simpa [BitVec.getLsbD, Nat.testBit_zero] using heven
  rw [State.addressFault_eq_some]
  refine and_congr_right fun _ => ?_
  omega

/-- All that a fetch can raise, each cause after the checks before it passed (60_exceptions R252). -/
theorem State.fetchInstr_error_cases {s : State} {c : Cause} (h : s.fetchInstr = .error c) :
    (c = .fetchMisaligned s.pc ∧ s.pc.getLsbD 0 = true) ∨
    (s.pc.getLsbD 0 = false ∧ c = .addressRange s.pc.toNat s.pc ∧ s.config.addrPolicy = .fault ∧ 0x0FFE < s.pc.toNat) ∨
    (s.canFetch ∧ c = .decodeError s.fetchWord s.pc ∧ decodeWord s.fetchWord = none) := by
  cases hpc : s.pc.getLsbD 0 with
  | true =>
    rw [State.fetchInstr_of_odd hpc] at h
    cases h
    exact .inl ⟨rfl, rfl⟩
  | false =>
    cases hrange : s.addressFault s.pc.toNat 2 with
    | some a =>
      obtain ⟨hpolicy, hout, rfl⟩ := (State.addressFault_fetch hpc a).mp hrange
      rw [State.fetchInstr_of_addressFault hpc hrange] at h
      cases h
      exact .inr (.inl ⟨rfl, rfl, hpolicy, hout⟩)
    | none =>
      rw [State.fetchInstr_eq, hpc, hrange] at h
      cases hw : decodeWord s.fetchWord with
      | some i => simp [hw] at h
      | none =>
        have hc : Cause.decodeError s.fetchWord s.pc = c := by simpa [hw] using h
        exact .inr (.inr ⟨s.canFetch_iff.mpr ⟨hpc, hrange⟩, hc.symm, rfl⟩)

/-- Settles O11: the alignment of `pc` is the fetch's first check. -/
theorem oddPcRaisesMisaligned : Obligations.OddPcRaisesMisaligned := fun _ hs hodd =>
  State.coreStep_of_fetchInstr_error hs (State.fetchInstr_of_odd hodd)

/-- Settles O12: the fetch reports `pc`, and the guard of each of the four instructions the first address from `I` that is
above 0x0FFF. -/
theorem outOfRangeRaisesAddressRange : Obligations.OutOfRangeRaisesAddressRange := by
  refine ⟨fun s hs heven hpolicy hout => ?_, fun s x y n hpolicy => ?_⟩
  · have hfault := (State.addressFault_fetch heven _).mpr ⟨hpolicy, hout, rfl⟩
    exact State.coreStep_of_fetchInstr_error hs (State.fetchInstr_of_addressFault heven hfault)
  · intro out
    have hraise (done : State) {count : Nat} (hpos : 0 < count) (hout : 0x0FFF < s.i.toNat + (count - 1)) :
        Host.Outcome.next (s.guardData count done) = out := by
      have hfirst : max s.i.toNat 0x1000 = if 0x1000 ≤ s.i.toNat then s.i.toNat else 0x1000 := max_def' _ _
      rw [State.guardData_of_outOfRange done hpolicy hpos hout, hfirst]
      rfl
    exact ⟨fun ⟨hpos, hout⟩ => hraise _ hpos hout, fun hout => hraise _ (by decide) hout,
      fun hout => ⟨hraise _ (by decide) hout, hraise _ (by decide) hout⟩⟩

/-! ## An instruction that raises -/

/-- `count` is the length of the range through `I` that the instruction accesses, for the four that do (20_memory R66). -/
def AccessesThroughI (i : Instr) (count : Nat) : Prop :=
  (∃ x y n, i = .draw x y n ∧ count = n.toNat) ∨ (∃ x, i = .loadBcd x ∧ count = 3) ∨
    (∃ x, i = .storeAll x ∧ count = 16) ∨ ∃ x, i = .loadAll x ∧ count = 16

/-- `Raises i s c`: the instruction `i`, executed in `s`, has the cause `c` to raise (60_exceptions R248, R249, R251). -/
inductive Raises : Instr → State → Cause → Prop where
  | overflow {s : State} (nnn : Addr12) (hsp : 16 ≤ s.sp.toNat) : Raises (.call nnn) s (.stackOverflow s.pc)
  | underflow {s : State} (hsp : s.sp = 0x00#8) : Raises .ret s (.stackUnderflow s.pc)
  | outOfRange {i : Instr} {s : State} {count : Nat} (hi : AccessesThroughI i count) (hpolicy : s.config.addrPolicy = .fault)
      (hpos : 0 < count) (hout : 0x0FFF < s.i.toNat + (count - 1)) :
      Raises i s (.addressRange (max s.i.toNat 0x1000) s.pc)

section
variable {s t : State} {c : Cause}

/-- A state with the status of a running one has not failed. -/
theorem State.status_ne_failed_of_running (hs : s.status = .running) (ht : t.status = s.status) : t.status ≠ .failed c := by
  rw [ht, hs]
  exact nofun

/-- A guard before an access that leaves the status alone fails only with a range that passes 0x0FFF. -/
theorem Raises.of_guardData {i : Instr} {count : Nat} (hi : AccessesThroughI i count) {done : State}
    (hs : s.status = .running) (hc : (s.guardData count done).status = .failed c) (hdone : done.status = s.status) :
    Raises i s c := by
  rcases s.guardData_cases done count with e | ⟨hpolicy, hpos, hout, e⟩
  · rw [e] at hc
    exact absurd hc (State.status_ne_failed_of_running hs hdone)
  · rw [e] at hc
    cases hc
    exact .outOfRange hi hpolicy hpos hout

/-- With an `SP` above 16 RETURN stops the model (log entry 10). -/
theorem exec_ret_of_illegal (hsp : s.sp ≠ 0x00#8) (htop : ¬(s.sp - 1#8).toNat < 16) :
    exec .ret s = .fault .stackPointerIllegal :=
  (if_neg hsp).trans (dif_neg htop)

theorem Raises.of_ret (hs : s.status = .running) (h : exec .ret s = .next t) (hc : t.status = .failed c) :
    Raises .ret s c := by
  by_cases hempty : s.sp = 0x00#8
  · rw [exec_ret_of_empty hempty] at h
    cases h
    cases hc
    exact .underflow hempty
  by_cases htop : (s.sp - 1#8).toNat < 16
  · rw [exec_ret_of_live hempty htop] at h
    cases h
    exact absurd hc (State.status_ne_failed_of_running hs rfl)
  · rw [exec_ret_of_illegal hempty htop] at h
    cases h

theorem Raises.of_call {nnn : Addr12} (hs : s.status = .running) (h : exec (.call nnn) s = .next t)
    (hc : t.status = .failed c) : Raises (.call nnn) s c := by
  by_cases hroom : s.sp.toNat < 16
  · rw [exec_call_of_room nnn hroom] at h
    cases h
    exact absurd hc (State.status_ne_failed_of_running hs rfl)
  · rw [exec_call_of_full nnn hroom] at h
    cases h
    cases hc
    exact .overflow nnn (not_lt.mp hroom)

/-- The key wait takes a key or holds, and raises nothing. -/
theorem exec_loadKey_status {x : Nibble} (h : exec (.loadKey x) s = .next t) : t.status = s.status := by
  cases h
  cases s.input.keyEvent <;> rfl

/-- All that an instruction of a running core can raise: RETURN, CALL and the four instructions with a guard are the only ones
that do. -/
theorem exec_raises {i : Instr} (hs : s.status = .running) (h : exec i s = .next t) (hc : t.status = .failed c) :
    Raises i s c := by
  cases i
  case ret => exact .of_ret hs h hc
  case call => exact .of_call hs h hc
  case loadKey => exact absurd hc (State.status_ne_failed_of_running hs (exec_loadKey_status h))
  all_goals cases h
  case draw x y n => exact .of_guardData (.inl ⟨x, y, n, rfl, rfl⟩) hs hc rfl
  case loadBcd x => exact .of_guardData (.inr (.inl ⟨x, rfl, rfl⟩)) hs hc (s.writeBytes_status _ _)
  case storeAll x => exact .of_guardData (.inr (.inr (.inl ⟨x, rfl, rfl⟩))) hs hc (s.writeBytes_status _ _)
  case loadAll x => exact .of_guardData (.inr (.inr (.inr ⟨x, rfl, rfl⟩))) hs hc rfl
  all_goals exact absurd hc (State.status_ne_failed_of_running hs rfl)

end

/-! ## A core step that raises -/

/-- Settles O14: the fetch's cause is raised by `State.raise`, and so is an instruction's, since otherwise the status is the
running core's. -/
theorem raisingChangesOnlyStatus : Obligations.RaisingChangesOnlyStatus := by
  intro s t c h hc
  obtain ⟨hs, ⟨i, -, hexec⟩ | ⟨c', -, rfl⟩⟩ := s.coreStep_next t h
  · obtain hkept | ⟨c', rfl⟩ := exec_status i s t hexec
    · exact absurd hc (State.status_ne_failed_of_running hs hkept)
    · cases hc
      exact ⟨hs, rfl⟩
  · cases hc
    exact ⟨hs, rfl⟩

/-- Settles O15: the first three causes are the fetch's, the others the fetched instruction's. -/
theorem causesOfFaults : Obligations.CausesOfFaults := by
  intro s t c h hc
  obtain ⟨hs, ⟨i, hfetch, hexec⟩ | ⟨c', hfetch, rfl⟩⟩ := s.coreStep_next t h
  · obtain ⟨heven, hrange, hi⟩ := (s.fetchInstr_ok i).mp hfetch
    have hcan : s.canFetch := s.canFetch_iff.mpr ⟨heven, hrange⟩
    refine .inr (.inr (.inr ?_))
    cases exec_raises hs hexec hc with
    | overflow nnn hsp => exact .inl ⟨hcan, rfl, ⟨nnn, hi⟩, hsp⟩
    | underflow hsp => exact .inr (.inl ⟨hcan, rfl, hi, hsp⟩)
    | outOfRange haccess hpolicy hpos hout =>
      exact .inr (.inr ⟨hcan, hpolicy, i, _, _, hi, rfl, hpos, hout, haccess⟩)
  · cases hc
    obtain hodd | hrange | hillegal := State.fetchInstr_error_cases hfetch
    · exact .inl hodd
    · exact .inr (.inl hrange)
    · exact .inr (.inr (.inl hillegal))

end Sys2Proof.Machine
end

section
/-! The agents beside the core: a failed machine, the tick, and the run with its cancel signal (60_exceptions R245, R262,
R270). -/

namespace Sys2Proof.Machine

/-! ## The tick and the failed machine -/

/-- A single tick takes one from a timer that is not zero. -/
theorem timerAfter_one (t : Byte) : timerAfter 1 t = if t = 0x00#8 then 0x00#8 else t - 1#8 := by
  rw [timerAfter]
  refine ite_congr rfl (fun _ => rfl) fun hne => ?_
  have hpos : 0 < t.toNat := by bv_omega
  bv_omega

/-- Settles O16: the tick is one tick of both timers, and no other field is written. -/
theorem tickDecrementsTimers : Obligations.TickDecrementsTimers := fun s =>
  ⟨s.tick, rfl, timerAfter_one s.dt, timerAfter_one s.st, rfl⟩

/-- The inputs that a step of the model takes in do not revive a failed core. -/
theorem step_failed {s : State} {c : Cause} (h : s.status = .failed c) : step s = .fault (.coreFailed c) :=
  s.beginStep.coreStep_failed c h

/-- Settles O13: of the moves other than a reset, the core's is impossible, and the tick and the supplied inputs do not write
the status. -/
theorem failedIsTerminal : Obligations.FailedIsTerminal := by
  intro s c hs
  refine ⟨step_failed hs, ⟨s.tick, rfl, timerAfter_toNat 1 s.dt, timerAfter_toNat 1 s.st⟩, fun a t h hne => ?_⟩
  cases a with
  | step =>
    have hstep : step s = .next t := h
    rw [step_failed hs] at hstep
    cases hstep
  | tick => cases h; exact absurd hs hne
  | supply inp => cases h; exact absurd hs hne
  | reset image => exact ⟨image, rfl⟩

/-! ## The run -/

/-- While the signal is clear, a run follows the core's steps. -/
theorem runUntil_replicate_append (k : Nat) (cancels : List Bool) {s t : State}
    (h : Host.Core.run Sys2Proof.core k s = .next t) :
    runUntil (List.replicate k false ++ cancels) s = runUntil cancels t := by
  induction k generalizing s with
  | zero => cases h; rfl
  | succ k ih =>
    obtain ⟨u, hstep, hrun⟩ := core_run_succ k s t h
    have hs : s.status = .running := (step_next s u hstep).1
    rw [List.replicate_succ, List.cons_append, runUntil_step _ s u hs hstep, ih hrun]

/-- A step that stops the model ends the run before it (log entry 10). -/
theorem runUntil_stopped (later : List Bool) {s : State} {f : Fault} (hs : s.status = .running)
    (hstep : step s = .fault f) : runUntil (false :: later) s = .stopped f s := by
  rw [runUntil.eq_def]
  simp [hs, hstep]

/-- So does a refused instruction. -/
theorem runUntil_refused (later : List Bool) {s : State} {r : Refusal} (hs : s.status = .running)
    (hstep : step s = .refused r) : runUntil (false :: later) s = .refused r s := by
  rw [runUntil.eq_def]
  simp [hs, hstep]

/-- The status of the state that a run's answer carries, for the two answers that end it by rule (60_exceptions R270). -/
def RunEnd.StatusAgrees : RunEnd → Prop
  | .cancelled t => t.status = .running
  | .failed c t => t.status = .failed c
  | _ => True

theorem runUntil_statusAgrees (cancels : List Bool) (s : State) : (runUntil cancels s).StatusAgrees := by
  induction cancels generalizing s with
  | nil =>
    cases hs : s.status with
    | failed c => rw [runUntil_failed _ s c hs]; exact hs
    | running => rw [runUntil_going s hs]; trivial
  | cons signal later ih =>
    cases hs : s.status with
    | failed c => rw [runUntil_failed _ s c hs]; exact hs
    | running =>
      cases signal with
      | true => rw [runUntil_cancelled later s hs]; exact hs
      | false =>
        cases hstep : step s with
        | next t => rw [runUntil_step later s t hs hstep]; exact ih t
        | fault r => rw [runUntil_stopped later hs hstep]; trivial
        | refused r => rw [runUntil_refused later hs hstep]; trivial

/-- Settles O17: after `k` clear samples the run is at the state the core's steps leave, where a set signal cancels it, and a
failing step makes the next test of the status its end. -/
theorem cancelFallsBetweenSteps : Obligations.CancelFallsBetweenSteps := by
  refine ⟨fun k later s t hrun ht => ?_, fun k later s u t c hrun hstep ht => ?_, fun cancels s t => ⟨fun h => ?_, fun c h => ?_⟩⟩
  · rw [runUntil_replicate_append k _ hrun, runUntil_cancelled later t ht]
  · have hu : u.status = .running := (step_next u t hstep).1
    rw [List.replicate_succ', List.append_assoc, runUntil_replicate_append k _ hrun]
    exact (runUntil_step later u t hu hstep).trans (runUntil_failed later t c ht)
  · have hagrees := runUntil_statusAgrees cancels s
    rwa [h] at hagrees
  · have hagrees := runUntil_statusAgrees cancels s
    rwa [h] at hagrees

end Sys2Proof.Machine
end

section
/-! The host's reset with an image: the state it leaves, its memory, and the first step after it (70_reset R281 to R286). -/

namespace Sys2Proof.Machine

/-- With an image too long to load, only the status is specified (70_reset R283). -/
theorem State.hostReset_status_of_oversize (s : State) {image : List Byte} (h : 3584 < image.length) :
    (s.hostReset image).status = .failed (.loadCapacity image.length) := by
  have hfits : imageFits image = false := by simpa [imageFits] using h
  rw [State.hostReset, hfits]
  rfl

/-! ## A reset with an acceptable image -/

/-- With nothing loaded, every address in range reads as unlisted, whatever the parameters. -/
theorem readByte_reset_with_config (c : Config) {a : Nat} (h : a < 4096) :
    ({ State.reset with config := c } : State).readByte a = unlistedByte c a := by
  rw [State.readByte, ea, Nat.mod_eq_of_lt h]
  rfl

section
variable (s : State) {image : List Byte} (hfits : image.length ≤ 3584)
include hfits

theorem State.hostReset_mem :
    (s.hostReset image).mem = ({ State.reset with config := s.config }.writeBytes 0x200 image).mem := by
  rw [s.hostReset_of_fits image hfits]

theorem State.hostReset_pc : (s.hostReset image).pc = 0x0200#16 := congrArg State.pc (s.hostReset_of_fits image hfits)

theorem State.hostReset_sp : (s.hostReset image).sp = 0x00#8 := congrArg State.sp (s.hostReset_of_fits image hfits)

theorem State.hostReset_status : (s.hostReset image).status = .running :=
  congrArg State.status (s.hostReset_of_fits image hfits)

theorem State.hostReset_readByte (a : Nat) :
    (s.hostReset image).readByte a = ({ State.reset with config := s.config }.writeBytes 0x200 image).readByte a :=
  State.readByte_congr (s.hostReset_mem hfits) (State.writeBytes_config { State.reset with config := s.config } _ _).symm a

theorem State.hostReset_readByte_image {j : Nat} (hj : j < image.length) :
    (s.hostReset image).readByte (0x200 + j) = image[j] := by
  rw [s.hostReset_readByte hfits]
  exact State.readByte_writeBytes_same _ _ _ _ (by omega) hj

/-- An address before the image or past its end reads as unlisted. -/
theorem State.hostReset_readByte_outside {a : Nat} (ha : a < 4096) (hout : a < 0x200 ∨ 0x200 + image.length ≤ a) :
    (s.hostReset image).readByte a = unlistedByte s.config a := by
  have hother : ∀ k < image.length, ea a ≠ ea (0x200 + k) := fun k hk => by
    unfold ea
    omega
  rw [s.hostReset_readByte hfits, State.readByte_writeBytes_other _ _ _ _ hother, readByte_reset_with_config _ ha]

/-- Program memory reads as the image with 0x00 after its end. -/
theorem State.hostReset_readByte_program {j : Nat} (hj : j < 3584) :
    (s.hostReset image).readByte (0x200 + j) = image.getD j 0x00#8 := by
  by_cases hlt : j < image.length
  · rw [s.hostReset_readByte_image hfits hlt, List.getD_eq_getElem _ _ hlt]
  · rw [s.hostReset_readByte_outside hfits (by omega) (by omega), List.getD_eq_default _ _ (not_lt.mp hlt), unlistedByte,
      dif_neg (by omega)]

theorem State.hostReset_inv : (s.hostReset image).Inv := by
  have hmem := State.wf_writeBytes { State.reset with config := s.config } 0x200 image (Memory.wf_nil _)
  rw [State.writeBytes_config, ← s.hostReset_mem hfits] at hmem
  have hsp : (s.hostReset image).sp.toNat = 0 := congrArg BitVec.toNat (s.hostReset_sp hfits)
  exact ⟨hmem, by omega, fun k _ hlive => by omega⟩

/-- The fetch at 0x200 passes its checks under either policy. -/
theorem State.hostReset_canFetch : (s.hostReset image).canFetch := by
  rw [State.canFetch, s.hostReset_pc hfits]
  exact ⟨by decide, .inr (by decide)⟩

theorem State.hostReset_fetchWord :
    (s.hostReset image).fetchWord = wordOfBytes (image.getD 0 0x00#8) (image.getD 1 0x00#8) := by
  have hpc : (s.hostReset image).pc.toNat = 0x200 := congrArg BitVec.toNat (s.hostReset_pc hfits)
  have hhi := s.hostReset_readByte_program hfits (j := 0) (by decide)
  have hlo := s.hostReset_readByte_program hfits (j := 1) (by decide)
  rw [State.fetchWord, hpc, hlo]
  exact congrArg (wordOfBytes · _) hhi

end

/-! ## The four statements -/

/-- Settles O20: the failed status admits no step, and a good reset does not look at it. -/
theorem oversizeImageFailsToLoad : Obligations.OversizeImageFailsToLoad := by
  intro s image h
  have hfailed := s.hostReset_status_of_oversize h
  exact ⟨hfailed, step_failed hfailed, fun good hgood => State.hostReset_status _ hgood⟩

/-- Settles O19: registers, stack and display are replicated zeros, and memory is the image on the unlisted contents. -/
theorem resetLoadsImage : Obligations.ResetLoadsImage := by
  intro s image hfits
  have hfields := s.hostReset_of_fits image hfits
  have hv : (s.hostReset image).v = Vector.replicate 16 0x00#8 := congrArg State.v hfields
  have hstack : (s.hostReset image).stack = Vector.replicate 16 0x0000#16 := congrArg State.stack hfields
  have hdisp : (s.hostReset image).disp = Vector.replicate 256 0x00#8 := congrArg State.disp hfields
  refine ⟨s.hostReset image, rfl, s.hostReset_pc hfits, s.hostReset_sp hfits, congrArg State.i hfields,
    congrArg State.dt hfields, congrArg State.st hfields, s.hostReset_status hfits, fun r => ?_, fun k h => ?_,
    fun k h => ?_, fun j h => s.hostReset_readByte_image hfits h, fun a h => ?_, fun a hglyphs hout h => ?_⟩
  · simp [State.reg, hv]
  · simp [hstack]
  · simp [hdisp]
  · rw [s.hostReset_readByte_outside hfits (by omega) (by omega), unlistedByte, dif_pos h]
  · rw [s.hostReset_readByte_outside hfits h hout, unlistedByte, dif_neg (by omega)]

/-- Settles O21: the reset machine fetches the image's first word. -/
theorem firstStepAfterReset : Obligations.FirstStepAfterReset := by
  intro s image hfits w
  have hs := s.hostReset_status hfits
  have hcan := s.hostReset_canFetch hfits
  have hword : (s.hostReset image).fetchWord = w := s.hostReset_fetchWord hfits
  cases hw : decodeWord w with
  | some i => exact State.coreStep_of_decodeWord hs hcan (hword.symm ▸ hw)
  | none =>
    rw [State.coreStep_of_decodeWord_eq_none hs hcan (hword.symm ▸ hw), hword, s.hostReset_pc hfits]
    rfl

/-- Settles O24: the image is stored in canonical form, and no return address is live. -/
theorem loadedMachineMeetsInvariant : Obligations.LoadedMachineMeetsInvariant := fun s _ hfits => s.hostReset_inv hfits

end Sys2Proof.Machine
end
